-- ==== Sys2Proof/Config.lean ====
section
/-! DEFINITION. The constants of the hardware (00_scope.md R5) and the model's one free value. -/

namespace Sys2Proof.Config

/-- `RAM_SIZE`: the number of memory cells, and the radix that packs opcode and operand into one
cell (R5). The literal is the spec's, not audited against the repository (D1): UNVERIFIED, unsafe,
log 1. -/
abbrev ramSize : Nat := 1000

/-- `MAX_VALUE`: the largest value a cell or the accumulator may hold (R5). UNVERIFIED, unsafe,
log 1. -/
abbrev maxValue : Nat := 99999

/-- `OPCODE_MAX`: the largest opcode a cell can encode, `MAX_VALUE div RAM_SIZE` (R5). -/
abbrev opcodeMax : Nat := 99

/-- The largest opcode that has a mnemonic, the end of `DEFINED_OPCODES` (R5). -/
abbrev lastDefinedOpcode : Nat := 10

/-- `ENTRY`: the instruction pointer at the start of an execution (R5). -/
abbrev entry : Nat := 0

/-- What an instruction gets when it reads, as data, a cell that holds a number above `MAX_VALUE`:
93_implementation_defined.md U4 says it "has no defined result in the source". A FREE VALUE of the
address and of the number held: it has no body, so no proof can know it; it lies in the one range
the machine's values have (R110). No reachable state holds such a cell (R31). DESIGN CHOICE, safe,
log 4. -/
opaque unstatedRead (address cell : Nat) : Fin (maxValue + 1)

end Sys2Proof.Config
end

