-- ==== Sys2Proof/Syntax.lean ====
section
/-! DEFINITION. The instructions: one constructor per row of spec/opcode_table.json (30_encoding.md
R63, R74). -/

namespace Sys2Proof

/-- One instruction, with the operand digits of its cell. The operand is a natural number here;
WellFormed.lean says which are encodable. NOOP and HLT ignore their operand digits (R68) but keep
them, since the decoder still reports them (R68, R138): log 18. -/
inductive Instr where
  /-- opcode 0, R120 -/
  | noop (operand : Nat)
  /-- opcode 1, R100 -/
  | take (operand : Nat)
  /-- opcode 2, R111 -/
  | add (operand : Nat)
  /-- opcode 3, R112 -/
  | sub (operand : Nat)
  /-- opcode 4, R101 -/
  | save (operand : Nat)
  /-- opcode 5, R121 -/
  | jmp (operand : Nat)
  /-- opcode 6, R122 -/
  | tst (operand : Nat)
  /-- opcode 7, R113 -/
  | inc (operand : Nat)
  /-- opcode 8, R114 -/
  | dec (operand : Nat)
  /-- opcode 9, R102 -/
  | null (operand : Nat)
  /-- opcode 10, R123 -/
  | hlt (operand : Nat)
  /-- opcodes 11 to 99, the "unknown" marker that carries the raw opcode (R64, R73, R153) -/
  | unknown (opcode operand : Nat)
deriving DecidableEq, Repr

/-- The decoder's `kind` output: "a closed enumeration over the eleven mnemonics plus an explicit
'unknown' variant carrying the raw numeric opcode" (R73). -/
inductive Kind where
  | noop | take | add | sub | save | jmp | tst | inc | dec | null | hlt
  | unknown (opcode : Nat)
deriving DecidableEq, Repr

end Sys2Proof
end

