-- ==== Sys2Proof/Decode.lean ====
section
/-! DEFINITION. The instruction decoder (30_encoding.md R60 to R64, R73) and the encoder (R63).
The fields are cut on the NUMBER, in decimal: they are not bit fields (R61). -/

namespace Sys2Proof

/-- `opcode = code div 1000` (R61). -/
def opcodeOf (code : Nat) : Nat := code / Config.ramSize

/-- `operand = code mod 1000` (R61, R65). -/
def operandOf (code : Nat) : Nat := code % Config.ramSize

/-- The opcode map (R63, R64). -/
def kindOf (opcode : Nat) : Kind :=
  match opcode with
  | 0 => .noop
  | 1 => .take
  | 2 => .add
  | 3 => .sub
  | 4 => .save
  | 5 => .jmp
  | 6 => .tst
  | 7 => .inc
  | 8 => .dec
  | 9 => .null
  | 10 => .hlt
  | n => .unknown n

/-- The instruction of a kind with its operand digits. -/
def Kind.instr (k : Kind) (operand : Nat) : Instr :=
  match k with
  | .noop => .noop operand
  | .take => .take operand
  | .add => .add operand
  | .sub => .sub operand
  | .save => .save operand
  | .jmp => .jmp operand
  | .tst => .tst operand
  | .inc => .inc operand
  | .dec => .dec operand
  | .null => .null operand
  | .hlt => .hlt operand
  | .unknown n => .unknown n operand

/-- What decoding answers: an instruction (the unknown marker is one, R64), or the failure of the
range check, by name and with the offending value (R62). -/
inductive Decoded where
  | instr (i : Instr)
  | valueOutOfRange (code : Nat)
deriving DecidableEq, Repr

/-- `decode(code)` with its range check (R61, R62). Total; never fails for an unknown opcode
(R64). -/
def decode (code : Nat) : Decoded :=
  if code ≤ Config.maxValue then .instr ((kindOf (opcodeOf code)).instr (operandOf code))
  else .valueOutOfRange code

/-- The outputs of the decoder block (R73). -/
structure DecoderOutputs where
  inRange : Bool
  opcode : Nat
  operand : Nat
  kind : Kind
deriving DecidableEq, Repr

/-- The decoder as a block: a function of the fetched code alone (R73). What stands on `opcode`,
`operand` and `kind` when `in_range` is false the spec leaves open (R61 gives the fields for codes up
to 99999): here the formulas of R61 are applied to any code. No step uses these outputs; DESIGN
CHOICE, unsafe, log 22. -/
def decoderBlock (code : Nat) : DecoderOutputs where
  inRange := decide (code ≤ Config.maxValue)
  opcode := opcodeOf code
  operand := operandOf code
  kind := kindOf (opcodeOf code)

/-- The opcode of an instruction, from the opcode map (R63). -/
def Instr.opcode : Instr → Nat
  | .noop _ => 0
  | .take _ => 1
  | .add _ => 2
  | .sub _ => 3
  | .save _ => 4
  | .jmp _ => 5
  | .tst _ => 6
  | .inc _ => 7
  | .dec _ => 8
  | .null _ => 9
  | .hlt _ => 10
  | .unknown n _ => n

/-- The operand digits of an instruction. -/
def Instr.operand : Instr → Nat
  | .noop a => a
  | .take a => a
  | .add a => a
  | .sub a => a
  | .save a => a
  | .jmp a => a
  | .tst a => a
  | .inc a => a
  | .dec a => a
  | .null a => a
  | .hlt a => a
  | .unknown _ a => a

/-- The kind of an instruction. -/
def Instr.kind (i : Instr) : Kind :=
  match i with
  | .noop _ => .noop
  | .take _ => .take
  | .add _ => .add
  | .sub _ => .sub
  | .save _ => .save
  | .jmp _ => .jmp
  | .tst _ => .tst
  | .inc _ => .inc
  | .dec _ => .dec
  | .null _ => .null
  | .hlt _ => .hlt
  | .unknown n _ => .unknown n

/-- The listing's spelling of a decoded cell's mnemonic, `?<n>` for an unknown opcode (R64, R71). -/
def Kind.mnemonic : Kind → String
  | .noop => "NOOP"
  | .take => "TAKE"
  | .add => "ADD"
  | .sub => "SUB"
  | .save => "SAVE"
  | .jmp => "JMP"
  | .tst => "TST"
  | .inc => "INC"
  | .dec => "DEC"
  | .null => "NULL"
  | .hlt => "HLT"
  | .unknown n => "?" ++ toString n

/-- `code = opcode * 1000 + operand` (R63): the one cell of an instruction. -/
def encode (i : Instr) : Nat := i.opcode * Config.ramSize + i.operand

/-- The instruction the decoder reads from a cell whose value, as a number, is `w`. An instruction
is one whole cell (R60) and the table selects its rows by the cell's number, not by bits (R74), so
the number is `w` and the width `nbits` has no part: DEDUCED, safe, log 11. -/
def decodeTableWord (_nbits w : Nat) : Option Instr :=
  match decode w with
  | .instr i => some i
  | .valueOutOfRange _ => none

end Sys2Proof
end

