-- ==== Sys2Proof/Machine/Alu.lean ====
section
/-! DEFINITION. The saturation ALU (42_arithmetic.md R110, R115). -/

namespace Sys2Proof.Machine

/-- `sat_add(a, b) = min(MAX_VALUE, a + b)`, the sum computed exactly (R110). -/
def satAdd (a b : Nat) : Nat := min Config.maxValue (a + b)

/-- `sat_sub(a, b) = max(0, a - b)`, the difference on integers (R8, R110). -/
def satSub (a b : Nat) : Nat := (max 0 ((a : Int) - (b : Int))).toNat

end Sys2Proof.Machine
end

