-- ==== Sys2Proof/Machine/State.lean ====
section
/-! DEFINITION. The state of CORE as plain data (10_state.md R20 to R33), the reasons a step could
stop, and the state after power-on reset (70_reset_and_hazards.md R180). -/

namespace Sys2Proof.Machine

/-- The memory: 1000 cells of numbers (20_memory.md R40), as (address, value) pairs. The spec's unit
is the CELL, a number up to 99999, and it has no bytes (R45), so an entry is not a `Host.Cell`:
DEDUCED, safe, log 3. An address with no entry reads as 0, what every cell holds after power-on
reset (R29). The canonical form is `Memory.wf` (Machine/Ops.lean). -/
structure Memory where
  entries : List (Nat × Nat)
deriving DecidableEq, Repr

/-- The four failures, a closed taxonomy (60_exceptions.md R150). -/
inductive Failure where
  | outOfBounds
  | valueOutOfRange
  | illegalInstruction
  | operationLimitExceeded
deriving DecidableEq, Repr

/-- `run_state` (10_state.md R24). `failed` carries the reason of the failure record (R27). -/
inductive RunState where
  | idle
  | running
  | halted
  | failed (reason : Failure)
deriving DecidableEq, Repr

/-- What the host may ask of CORE (50_interfaces.md R137). -/
inductive HostRequest where
  /-- power-on reset, allowed at any time (R137, R180) -/
  | powerOnReset
  /-- `execute`: start of an execution with this operation limit (R132, R181) -/
  | start (maxOps : Option Nat)
  /-- `set_cell`, and each write of the loader (R135, R136) -/
  | setCell (address value : Nat)
  /-- host read of a cell (R134) -/
  | readCell (address : Nat)
deriving DecidableEq, Repr

/-- The state of CORE: the seven elements of R20, and the host's inputs. -/
@[ext]
structure State where
  /-- the memory (R29, R40) -/
  mem : Memory
  /-- the accumulator, the one general register (R21) -/
  acc : Nat
  /-- the instruction pointer (R22) -/
  ip : Nat
  /-- `op_count`, the operation counter (R25) -/
  opCount : Nat
  /-- `run_state`, with the failure's reason (R24, R27) -/
  runState : RunState
  /-- `fail_code`, the code fetched in the failing cycle (R27) -/
  failCode : Nat
  /-- `max_ops`, the operation limit sampled at the start (R26) -/
  maxOps : Option Nat
  /-- The MODEL's own field, not the spec's: what the host presents at this step, at the next, and
  so on, `none` where it presents nothing; an empty list: nothing any more. DESIGN CHOICE, safe,
  log 8. -/
  hostIn : List (Option HostRequest)
deriving DecidableEq, Repr

/-- The reasons a step could stop with a fault: there is NONE. Every failure the spec has is a next
state with `run_state = Failed` (60_exceptions.md R157), and no instruction has an undefined effect
(93_implementation_defined.md, end of section 1). DEDUCED, safe, log 16. -/
inductive Fault where
deriving DecidableEq, Repr

/-- The reasons a step could be refused. -/
inductive Refusal where
  /-- The host interface's name for an instruction that has no meaning yet. No arm of `exec` raises
  it: every instruction has its meaning. Safe. -/
  | notModelled (mnemonic : String)
deriving DecidableEq, Repr

/-- The machine right after power-on reset (R33, R180): every cell 0, `acc`, `ip`, `op_count` and
`fail_code` 0, `Idle`. R26 gives `max_ops` no reset value (it is an input): absent here, DESIGN
CHOICE, unsafe, log 6. The host presents nothing: log 8. -/
def State.reset : State where
  mem := ⟨[]⟩
  acc := 0
  ip := 0
  opCount := 0
  runState := .idle
  failCode := 0
  maxOps := none
  hostIn := []

end Sys2Proof.Machine
end

