-- ==== Sys2Proof/Machine/Ops.lean ====
section
/-! DEFINITION. The named operations: memory (20_memory.md R40 to R44), registers, raising a failure
(60_exceptions.md R157) and the start of an execution (70_reset_and_hazards.md R181). -/

namespace Sys2Proof.Machine

/-! ## Memory -/

/-- What a cell with no entry reads as: 0, the reset contents of every cell (R29, R180). -/
def unlistedCell : Nat := 0

/-- The value listed for an address, or that of an unlisted cell. -/
def lookupCell : List (Nat × Nat) → Nat → Nat
  | [], _ => unlistedCell
  | (b, w) :: rest, a => if a = b then w else lookupCell rest a

/-- Put an entry before the first one with a larger address. -/
def insertCell (a v : Nat) : List (Nat × Nat) → List (Nat × Nat)
  | [] => [(a, v)]
  | (b, w) :: rest => if a < b then (a, v) :: (b, w) :: rest else (b, w) :: insertCell a v rest

/-- `mem[a]`, the value of one cell (R10). -/
def Memory.cellAt (m : Memory) (a : Nat) : Nat := lookupCell m.entries a

/-- `mem[a] <- v` in canonical form: a value that an unlisted cell reads as is not listed. -/
def Memory.put (m : Memory) (a v : Nat) : Memory :=
  let others := m.entries.filter (fun c => c.1 != a)
  if v = unlistedCell then ⟨others⟩ else ⟨insertCell a v others⟩

/-- Addresses rise strictly, from above `low`, and no entry reads as an unlisted cell does. -/
def canonicalFrom : Nat → List (Nat × Nat) → Bool
  | _, [] => true
  | low, (a, v) :: rest =>
    decide (low ≤ a) && decide (a < Config.ramSize) && decide (v ≠ unlistedCell) &&
      canonicalFrom (a + 1) rest

/-- The canonical form: addresses strictly rising, all of them cells that exist (R40, R48), no entry
equal to what an unlisted address reads as. -/
def Memory.wf (m : Memory) : Bool := canonicalFrom 0 m.entries

/-- Every cell is in `[0, MAX_VALUE]`: the Memory invariant (R31, R40). -/
def Memory.inRange (m : Memory) : Bool := m.entries.all (fun c => decide (c.2 ≤ Config.maxValue))

/-- `MemRead(addr, 1)` (R41). -/
def memRead (m : Memory) (addr : Nat) : Except Failure Nat :=
  if Config.ramSize ≤ addr then .error .outOfBounds else .ok (m.cellAt addr)

/-- `MemWrite(addr, 1, v)` (R42): the address is checked before the value (D11; log 20). -/
def memWrite (m : Memory) (addr v : Nat) : Except Failure Memory :=
  if Config.ramSize ≤ addr then .error .outOfBounds
  else if Config.maxValue < v then .error .valueOutOfRange
  else .ok (m.put addr v)

/-! ## Registers -/

/-- `acc <- v` (R10). -/
def State.setAcc (s : State) (v : Nat) : State := { s with acc := v }

/-- `ip <- target` (R10). -/
def State.setIp (s : State) (target : Nat) : State := { s with ip := target }

/-- The memory replaced by the result of a write. -/
def State.setMem (s : State) (m : Memory) : State := { s with mem := m }

/-- `halt`: `run_state <- Halted` (R10, R123). -/
def State.halt (s : State) : State := { s with runState := .halted }

/-- `opc <- opc + 1` (R84). -/
def State.count (s : State) : State := { s with opCount := s.opCount + 1 }

/-- The comparison of step 3, made with the already incremented count: `max_ops = some n` and
`opc >= n` (R84). For `n = 0` the literal comparison, as D5 decides: log 7. -/
def State.limitReached (s : State) : Bool :=
  match s.maxOps with
  | none => false
  | some n => decide (n ≤ s.opCount)

/-- Does the engine run cycles (R24, R81)? -/
def State.isRunning (s : State) : Bool := decide (s.runState = .running)

/-- Is a failure recorded, that is, is the run state `Failed` (R24)? -/
def State.isFailed (s : State) : Bool :=
  match s.runState with
  | .failed _ => true
  | _ => false

/-! ## Failure and start: entering and leaving `Failed` -/

/-- TAKING A FAILURE, `raise <Failure>(info)` (60_exceptions.md R157): `run_state <- Failed`, the
context held. `fetched` is the code fetched in step 2 of the failing cycle, `none` where the cycle
failed in step 1 and fetched nothing: then `fail_code` is not written (R27). `acc`, `ip`, memory and
the count stay as they are; no handler, no vector, nothing saved. -/
def State.raise (s : State) (f : Failure) (fetched : Option Nat) : State :=
  match fetched with
  | none => { s with runState := .failed f }
  | some code => { s with runState := .failed f, failCode := code }

/-- THE ONLY WAY OUT of `Failed` besides reset (R158): the start of an execution (R181). Memory is
not touched; the registers are 0, no failure is recorded, the limit is sampled. -/
def State.start (s : State) (maxOps : Option Nat) : State :=
  { s with
    acc := 0, ip := Config.entry, opCount := 0, runState := .running, failCode := 0,
    maxOps := maxOps }

/-- Power-on reset (R180), at any time (R137): everything as `State.reset`; what the host presents
at later steps is the host's and stays. -/
def State.powerOn (s : State) : State := { State.reset with hostIn := s.hostIn }

/-- The context that a failure records, read where R155 says it is held. -/
def State.failContext (s : State) : Option Nat :=
  match s.runState with
  | .failed .outOfBounds => some s.ip
  | .failed .valueOutOfRange => some s.failCode
  | .failed .illegalInstruction => some s.failCode
  | .failed .operationLimitExceeded => some s.opCount
  | .idle => none
  | .running => none
  | .halted => none

end Sys2Proof.Machine
end

