-- ==== Sys2Proof/Machine/Operands.lean ====
section
/-! DEFINITION. The one operand form, absolute direct (41_load_store.md R103, 30_encoding.md R65),
and how an effect that reads or writes its operand ends. -/

namespace Sys2Proof.Machine

/-- The effective address is the operand itself (R103). -/
def effectiveAddress (operand : Nat) : Nat := operand

/-- The value an instruction gets from a cell: what the cell holds (R41). For a number above
`MAX_VALUE`, which no reachable state holds (R31), the source gives no result (U4): a free value,
DESIGN CHOICE, safe, log 4. -/
def dataValue (address cell : Nat) : Nat :=
  if cell ≤ Config.maxValue then cell else (Config.unstatedRead address cell).val

/-- `MemRead(operand, 1)` made by an instruction (R41, R103). -/
def loadOperand (s : State) (operand : Nat) : Except Failure Nat :=
  match memRead s.mem (effectiveAddress operand) with
  | .error f => .error f
  | .ok cell => .ok (dataValue (effectiveAddress operand) cell)

/-- `MemWrite(operand, 1, v)` made by an instruction (R42, R103). -/
def storeOperand (s : State) (operand v : Nat) : Except Failure State :=
  match memWrite s.mem (effectiveAddress operand) v with
  | .error f => .error f
  | .ok m => .ok (s.setMem m)

/-- How step 5 ends: the effect's state, or the failure of one of its accesses, raised on the state
before the effect (40_cycle_fsm.md R89, R90: no instruction is left half done). `code` is the
fetched code, which `fail_code` holds (R27; DEDUCED, log 5). -/
def finishEffect (s : State) (code : Nat) (effect : Except Failure State) :
    Host.Outcome State Fault Refusal :=
  match effect with
  | .error f => .next (s.raise f (some code))
  | .ok t => .next t

end Sys2Proof.Machine
end

