-- ==== Sys2Proof/Machine/ProgramCounter.lean ====
section
/-! DEFINITION. The program-counter logic as a block (43_control.md R125). -/

namespace Sys2Proof.Machine

/-- The next `ip` (R88, R125). No reduction modulo 1000 is made. A cycle that raises a failure keeps
`ip` by never coming here, as does an unknown opcode. -/
def nextIp (kind : Kind) (ip operand : Nat) (loadedZero : Bool) : Nat :=
  match kind with
  | .jmp => operand
  | .tst => if loadedZero then ip + 2 else ip + 1
  | .hlt => ip
  | .noop => ip + 1
  | .take => ip + 1
  | .add => ip + 1
  | .sub => ip + 1
  | .save => ip + 1
  | .inc => ip + 1
  | .dec => ip + 1
  | .null => ip + 1
  | .unknown _ => ip

/-- The last assignment of an effect: `ip` is set from the `ip` of step 1 (R22, R88). -/
def State.advance (s : State) (kind : Kind) (operand : Nat) (loadedZero : Bool) : State :=
  s.setIp (nextIp kind s.ip operand loadedZero)

end Sys2Proof.Machine
end

