-- ==== Sys2Proof/Machine/Arithmetic.lean ====
section
/-! DEFINITION. ADD, SUB, INC and DEC (42_arithmetic.md). -/

namespace Sys2Proof.Machine

/-- INC and DEC: read the cell, put the new value into `acc` and back into the cell (R113, R114). -/
def updateCell (s : State) (operand : Nat) (kind : Kind) (f : Nat → Nat) : Except Failure State :=
  (loadOperand s operand).bind fun v =>
    (storeOperand (s.setAcc (f v)) operand (f v)).map fun t => t.advance kind operand false

/-- ADD (R111): `acc <- min(MAX_VALUE, acc + mem[operand])`. -/
def execAdd (operand : Nat) (s : State) : Host.Outcome State Fault Refusal :=
  finishEffect s (encode (.add operand))
    ((loadOperand s operand).map fun v => (s.setAcc (satAdd s.acc v)).advance .add operand false)

/-- SUB (R112): `acc <- max(0, acc - mem[operand])`. -/
def execSub (operand : Nat) (s : State) : Host.Outcome State Fault Refusal :=
  finishEffect s (encode (.sub operand))
    ((loadOperand s operand).map fun v => (s.setAcc (satSub s.acc v)).advance .sub operand false)

/-- INC (R113): `acc <- min(MAX_VALUE, mem[operand] + 1)`, `mem[operand] <- acc`. -/
def execInc (operand : Nat) (s : State) : Host.Outcome State Fault Refusal :=
  finishEffect s (encode (.inc operand)) (updateCell s operand .inc (fun v => satAdd v 1))

/-- DEC (R114): `acc <- max(0, mem[operand] - 1)`, `mem[operand] <- acc`. -/
def execDec (operand : Nat) (s : State) : Host.Outcome State Fault Refusal :=
  finishEffect s (encode (.dec operand)) (updateCell s operand .dec (fun v => satSub v 1))

end Sys2Proof.Machine
end

