-- ==== Sys2Proof/Machine/Flags.lean ====
section
/-! DEFINITION. CORE has NO flag (10_state.md R23). The one test it makes is the ALU's "is the value
0", used inside TST and not kept (R23, 42_arithmetic.md R115). -/

namespace Sys2Proof.Machine

/-- The zero test of the value TST has loaded (R115, R125). -/
def isZero (v : Nat) : Bool := decide (v = 0)

end Sys2Proof.Machine
end

