-- ==== Sys2Proof/Machine/Control.lean ====
section
/-! DEFINITION. NOOP, JMP, TST and HLT (43_control.md). -/

namespace Sys2Proof.Machine

/-- NOOP (R120): only `ip` moves; the operand digits are ignored (R68). -/
def execNoop (operand : Nat) (s : State) : Host.Outcome State Fault Refusal :=
  .next (s.advance .noop operand false)

/-- JMP (R121): `ip <- operand`; memory is not read there. -/
def execJmp (operand : Nat) (s : State) : Host.Outcome State Fault Refusal :=
  .next (s.advance .jmp operand false)

/-- TST (R122): `acc <- mem[operand]`, and one cell is passed over when that value is 0. -/
def execTst (operand : Nat) (s : State) : Host.Outcome State Fault Refusal :=
  finishEffect s (encode (.tst operand))
    ((loadOperand s operand).map fun v => (s.setAcc v).advance .tst operand (isZero v))

/-- HLT (R123): `run_state <- Halted`; `ip` stays on the HLT (D8; log 13); the operand digits are
ignored (R68). -/
def execHlt (operand : Nat) (s : State) : Host.Outcome State Fault Refusal :=
  .next (s.halt.advance .hlt operand false)

end Sys2Proof.Machine
end

