-- ==== Sys2Proof/Machine/Illegal.lean ====
section
/-! DEFINITION. The opcodes 11 to 99 (40_cycle_fsm.md R86, 60_exceptions.md R153). -/

namespace Sys2Proof.Machine

/-- An opcode without a mnemonic raises `IllegalInstruction` with the fetched code as context; `acc`,
`ip` and memory are unchanged (R86, R153). -/
def execUnknown (opcode operand : Nat) (s : State) : Host.Outcome State Fault Refusal :=
  .next (s.raise .illegalInstruction (some (encode (.unknown opcode operand))))

end Sys2Proof.Machine
end

