-- ==== Sys2Proof/Machine/LoadStore.lean ====
section
/-! DEFINITION. TAKE, SAVE and NULL (41_load_store.md). -/

namespace Sys2Proof.Machine

/-- TAKE (R100): `acc <- mem[operand]`. -/
def execTake (operand : Nat) (s : State) : Host.Outcome State Fault Refusal :=
  finishEffect s (encode (.take operand))
    ((loadOperand s operand).map fun v => (s.setAcc v).advance .take operand false)

/-- SAVE (R101): `mem[operand] <- acc`. -/
def execSave (operand : Nat) (s : State) : Host.Outcome State Fault Refusal :=
  finishEffect s (encode (.save operand))
    ((storeOperand s operand s.acc).map fun t => t.advance .save operand false)

/-- NULL (R102): `acc <- 0`, `mem[operand] <- 0`; the cell is not read. -/
def execNull (operand : Nat) (s : State) : Host.Outcome State Fault Refusal :=
  finishEffect s (encode (.null operand))
    ((storeOperand (s.setAcc 0) operand 0).map fun t => t.advance .null operand false)

end Sys2Proof.Machine
end

