-- ==== Sys2Proof/Machine/Dispatch.lean ====
section
/-! DEFINITION. Step 5 of the cycle: the closed match over the instructions (40_cycle_fsm.md R86). -/

namespace Sys2Proof.Machine

def exec (i : Instr) (s : State) : Host.Outcome State Fault Refusal :=
  match i with
  | .noop operand => Sys2Proof.Machine.execNoop operand s
  | .take operand => Sys2Proof.Machine.execTake operand s
  | .add operand => Sys2Proof.Machine.execAdd operand s
  | .sub operand => Sys2Proof.Machine.execSub operand s
  | .save operand => Sys2Proof.Machine.execSave operand s
  | .jmp operand => Sys2Proof.Machine.execJmp operand s
  | .tst operand => Sys2Proof.Machine.execTst operand s
  | .inc operand => Sys2Proof.Machine.execInc operand s
  | .dec operand => Sys2Proof.Machine.execDec operand s
  | .null operand => Sys2Proof.Machine.execNull operand s
  | .hlt operand => Sys2Proof.Machine.execHlt operand s
  | .unknown opcode operand => Sys2Proof.Machine.execUnknown opcode operand s

end Sys2Proof.Machine
end

