-- ==== Sys2Proof/Machine/Fetch.lean ====
section
/-! DEFINITION. Steps 1 to 4 of the cycle: validate `ip`, fetch, count and check the limit, decode
(40_cycle_fsm.md R81 to R85, R93). -/

namespace Sys2Proof.Machine

/-- How steps 1 to 4 end. -/
inductive Fetched where
  /-- a step raised a failure: the state after it -/
  | failed (t : State)
  /-- the decoded instruction, and the state (already counted) that step 5 applies it to -/
  | ready (i : Instr) (t : State)
deriving DecidableEq, Repr

/-- Step 4 and what step 3 left to do, for the code that step 2 read; `t` is the counted state
(R84, R85). -/
def decodeFetched (code : Nat) (t : State) : Fetched :=
  if t.limitReached then .failed (t.raise .operationLimitExceeded (some code))
  else
    match decode code with
    | .valueOutOfRange bad => .failed (t.raise .valueOutOfRange (some bad))
    | .instr i => .ready i t

/-- Steps 1 to 4 of `cycle()` (R81). -/
def fetch (s : State) : Fetched :=
  if Config.ramSize ≤ s.ip then .failed (s.raise .outOfBounds none)
  else
    match memRead s.mem s.ip with
    | .error f => .failed (s.raise f none)
    | .ok code => decodeFetched code s.count

end Sys2Proof.Machine
end

