-- ==== Sys2Proof/Machine/HostPort.lean ====
section
/-! DEFINITION. The host's transactions (50_interfaces.md R132 to R137, 20_memory.md R55). -/

namespace Sys2Proof.Machine

/-- What the host port answers (R131 `host_status` and `host_rdata`, R137). A failed check is told by
the memory failure's name (R135, R167). -/
inductive HostReply where
  | done
  | value (v : Nat)
  | failed (f : Failure)
  | busy
deriving DecidableEq, Repr

/-- The request presented at this step, if any. -/
def State.presented (s : State) : Option HostRequest :=
  match s.hostIn with
  | [] => none
  | r :: _ => r

/-- The inputs of this step taken. -/
def State.takeInput (s : State) : State := { s with hostIn := s.hostIn.tail }

/-- The effect of a request that is accepted. A failed check leaves every cell as it was and does not
change `run_state` (R135, R167); a read changes nothing (R134). -/
def serve (r : HostRequest) (s : State) : State :=
  match r with
  | .powerOnReset => s.powerOn
  | .start maxOps => s.start maxOps
  | .setCell address value =>
    match memWrite s.mem address value with
    | .error _ => s
    | .ok m => s.setMem m
  | .readCell _ => s

/-- What the host port answers to a request that is accepted (R134, R135). A start and a reset have no
answer on the port: they show in `run_state` (R137; log 9). -/
def acceptedReply (r : HostRequest) (s : State) : Option HostReply :=
  match r with
  | .powerOnReset => none
  | .start _ => none
  | .setCell address value =>
    match memWrite s.mem address value with
    | .error f => some (.failed f)
    | .ok _ => some .done
  | .readCell address =>
    match memRead s.mem address with
    | .error f => some (.failed f)
    | .ok v => some (.value v)

/-- Is this request refused in the state `s`? While Running every request but reset is (R55, R132,
R137, D15). -/
def HostRequest.refusedIn (r : HostRequest) (s : State) : Bool :=
  s.isRunning && decide (r ≠ .powerOnReset)

/-- What the host port answers in the step from `s` (R137). An output, not state: log 9. -/
def State.hostReply (s : State) : Option HostReply :=
  match s.presented with
  | none => none
  | some r => if r.refusedIn s then some .busy else acceptedReply r s

/-- Who acts in this step, and on which state. -/
inductive Turn where
  /-- the engine runs one cycle from this state -/
  | engine (t : State)
  /-- no cycle runs; this is the next state -/
  | host (t : State)
deriving DecidableEq, Repr

/-- The host and the engine never compete (R139). An accepted request is served, and no cycle runs in
that step; a refused one has no effect. Otherwise the engine runs one cycle if it is Running, and
nothing changes if it is not (R80, R91; log 12). -/
def turn (s : State) : Turn :=
  match s.presented with
  | none => if s.isRunning then .engine s.takeInput else .host s.takeInput
  | some r => if r.refusedIn s then .engine s.takeInput else .host (serve r s.takeInput)

/-- The loader toward CORE (R136, R70): line `k` is written to cell `k`, from `first` upward. -/
def loadRequests : Nat → List Instr → List (Option HostRequest)
  | _, [] => []
  | first, i :: rest => some (.setCell first (encode i)) :: loadRequests (first + 1) rest

end Sys2Proof.Machine
end

