-- ==== Sys2Proof/Machine/Step.lean ====
section
/-! DEFINITION. One step of the machine (40_cycle_fsm.md R81, R93): the host's turn, or one whole
cycle of the engine. Everything it does is in the files it calls. -/

namespace Sys2Proof.Machine

/-- One pass of `cycle()` (R81, steps 1 to 5; step 6 is Machine/Trace.lean). -/
def cycle (s : State) : Host.Outcome State Fault Refusal :=
  match fetch s with
  | .failed t => .next t
  | .ready i t => exec i t

/-- One step: one cycle while Running, the host's transaction otherwise (R80, R94, R139). -/
def step (s : State) : Host.Outcome State Fault Refusal :=
  match turn s with
  | .engine t => cycle t
  | .host t => .next t

/-- `s` with the cell value `w` where the next fetch reads, and all that it takes for the very next
step to fetch and run it: the engine Running (power-on reset leaves it Idle), `ip` at a cell, no
limit that this fetch would reach, no request presented at this step. It stands for the host's load
and start (log 10). -/
def State.withFetchWord (s : State) (_nbits w : Nat) : State :=
  let ip := if s.ip < Config.ramSize then s.ip else Config.entry
  { s with
    mem := s.mem.put ip w
    ip := ip
    runState := .running
    maxOps := if s.count.limitReached then none else s.maxOps
    hostIn := match s.hostIn with | [] => [] | r :: rest => none :: r :: rest }

end Sys2Proof.Machine
end

