-- ==== Sys2Proof/Word.lean ====
section
/-! DEFINITION. The reference binary forms of 10_state.md R30. The architecture works on ranges of
natural numbers (R20, R30: "A model should use the number ranges, not these widths"), so these
widths are used at the reference output ports only (Machine/Ports.lean). -/

namespace Sys2Proof

/-- A cell, `acc` or `fail_code` on a binary port: 17 bits, bit 0 least significant (R30, R45). -/
abbrev ValueBits := BitVec 17

/-- An address or `ip` on a binary port: 10 bits (R30). -/
abbrev AddressBits := BitVec 10

/-- An opcode on a binary port: 7 bits (R30). -/
abbrev OpcodeBits := BitVec 7

end Sys2Proof
end

