-- ==== Sys2Proof/Machine/Ports.lean ====
section
/-! DEFINITION. The output ports as the reference port list shows them (50_interfaces.md R131, R133),
in the reference binary forms of 10_state.md R30. No rule of the spec depends on them (D19). -/

namespace Sys2Proof.Machine

/-- The number on the `run_state` port (R24). -/
def RunState.code : RunState → Nat
  | .idle => 0
  | .running => 1
  | .halted => 2
  | .failed _ => 3

/-- The number of a failure (R150). -/
def Failure.code : Failure → Nat
  | .outOfBounds => 1
  | .valueOutOfRange => 2
  | .illegalInstruction => 3
  | .operationLimitExceeded => 4

/-- The number on the `fail_reason` port, 0 for none (R131, R150). -/
def RunState.failReason : RunState → Nat
  | .failed f => f.code
  | .idle => 0
  | .running => 0
  | .halted => 0

/-- The number on the `host_status` port (R131); a cell request fails with the failures 1 and 2 only
(R167). -/
def HostReply.status : HostReply → Nat
  | .done => 0
  | .value _ => 0
  | .failed f => f.code
  | .busy => 3

/-- The outputs that hold the result of an execution (R131, R133). `op_count` is shown as the number:
its width `OPCOUNT_BITS` is an open parameter of an implementation, and the architecture's counter has
no bound (D4; log 15). -/
structure HeldPorts where
  failCode : ValueBits
  opCount : Nat
  dbgAcc : ValueBits
  dbgIp : AddressBits
deriving DecidableEq, Repr

/-- The output ports (R131). `run_state` and `fail_reason` always show; `held` is `none` where the
other outputs cannot be observed. -/
structure OutputPorts where
  runState : BitVec 2
  failReason : BitVec 3
  held : Option HeldPorts
deriving DecidableEq, Repr

/-- The result outputs as they are held before a start and after the end of a run (R133). During a run
nothing but the trace is observable (40_cycle_fsm.md R94; the host cannot look during Running, D17),
so there they show nothing. -/
def State.heldPorts (s : State) : Option HeldPorts :=
  if s.isRunning then none
  else some
    { failCode := BitVec.ofNat 17 s.failCode
      opCount := s.opCount
      dbgAcc := BitVec.ofNat 17 s.acc
      dbgIp := BitVec.ofNat 10 s.ip }

/-- What the output ports show in a state (R131, R133, R94). That `run_state` shows Running during a
run, and `fail_reason` the 0 of a run that has not failed, is the busy indication of R137: DEDUCED,
unsafe for claims on these two ports, log 21. -/
def State.ports (s : State) : OutputPorts where
  runState := BitVec.ofNat 2 s.runState.code
  failReason := BitVec.ofNat 3 s.runState.failReason
  held := s.heldPorts

end Sys2Proof.Machine
end

