-- ==== Sys2Proof/Machine/Trace.lean ====
section
/-! DEFINITION. Step 6 of the cycle: the trace record (40_cycle_fsm.md R87, 50_interfaces.md R138). An
output, not state (R20, R87): a function of the state before the step. Log 9. -/

namespace Sys2Proof.Machine

/-- The reference record (R138, D14). -/
structure TraceRecord where
  tIp : Nat
  tOpcode : Nat
  tOperand : Nat
  tAcc : Nat
  tMemWritten : Bool
  tMemValue : Nat
  tNextIp : Nat
deriving DecidableEq, Repr

/-- `t_mem_written`: SAVE, INC, DEC and NULL write `mem[t_operand]` (R56, R138). -/
def Kind.writesCell : Kind → Bool
  | .save => true
  | .inc => true
  | .dec => true
  | .null => true
  | .noop => false
  | .take => false
  | .add => false
  | .sub => false
  | .jmp => false
  | .tst => false
  | .hlt => false
  | .unknown _ => false

/-- `t_mem_value` is shown for every instruction but NOOP, JMP and HLT (R138). -/
def Kind.showsCell : Kind → Bool
  | .noop => false
  | .jmp => false
  | .hlt => false
  | .unknown _ => false
  | .take => true
  | .add => true
  | .sub => true
  | .save => true
  | .tst => true
  | .inc => true
  | .dec => true
  | .null => true

/-- The record of `i`, applied at the address `ip`, with `t` the state after the effect (R138). -/
def traceRecord (i : Instr) (ip : Nat) (t : State) : TraceRecord where
  tIp := ip
  tOpcode := i.opcode
  tOperand := i.operand
  tAcc := t.acc
  tMemWritten := Kind.writesCell i.kind
  tMemValue := if Kind.showsCell i.kind then t.mem.cellAt i.operand else 0
  tNextIp := t.ip

/-- The record the step from `s` emits: one for each applied instruction, HLT included, none for a
cycle that raises a failure and none where no cycle runs (R87, R138). -/
def State.emitted (s : State) : Option TraceRecord :=
  match turn s with
  | .host _ => none
  | .engine u =>
    match fetch u with
    | .failed _ => none
    | .ready i v =>
      match exec i v with
      | .next t => if t.isFailed then none else some (traceRecord i v.ip t)
      | .fault _ => none
      | .refused _ => none

end Sys2Proof.Machine
end

