-- ==== Sys2Proof/Machine/Observe.lean ====
section
/-! DEFINITION. What can be observed of CORE (40_cycle_fsm.md R94, 60_exceptions.md R165): the output
ports, the answer on the host port, the trace. -/

namespace Sys2Proof.Machine

/-- All that is observed at one step. Memory is observed through the answer to a read of a cell
(R134). -/
structure Observation where
  /-- the output ports in the state before the step -/
  ports : OutputPorts
  /-- the answer on the host port, if a request is presented (R137) -/
  reply : Option HostReply
  /-- the trace record the step emits, if it applies an instruction (R138) -/
  trace : Option TraceRecord
deriving DecidableEq, Repr

/-- What is observed in the step from `s` (R94). During a run that is the trace, and that the block is
Running: the ports hold nothing out (`State.heldPorts`) and a request is answered busy (R137). -/
def State.observation (s : State) : Observation where
  ports := s.ports
  reply := s.hostReply
  trace := s.emitted

end Sys2Proof.Machine
end

