-- ==== Sys2Proof/Safety.lean ====
section
/-! DEFINITION. What a sound state is, and the terms in which claims about steps are made. -/

namespace Sys2Proof.Machine

/-- The ranges of 10_state.md R31, and the canonical form of the memory (log 3): every cell and `acc`
are in `[0, MAX_VALUE]`, `ip` is in `[0, 1001]`. -/
structure State.InRange (s : State) : Prop where
  memWf : s.mem.wf = true
  memInRange : s.mem.inRange = true
  accInRange : s.acc ≤ Config.maxValue
  ipInRange : s.ip ≤ Config.ramSize + 1

/-- The count agrees with the limit while an execution goes on: it has just started, or the limit
is not reached (R84). -/
def State.UnderLimit (s : State) : Prop :=
  ∀ n, s.maxOps = some n → s.opCount = 0 ∨ s.opCount < n

/-- The failure record fits the run state: what 10_state.md R27 and 60_exceptions.md R151 to R155 say
each failure leaves behind, and that no failure is recorded outside `Failed`. `ValueOutOfRange`
occurs "in no reachable state" (R150, R152). -/
def State.RecordSound (s : State) : Prop :=
  match s.runState with
  | .idle => s.failCode = 0
  | .running => s.failCode = 0 ∧ s.UnderLimit
  | .halted => s.failCode = 0 ∧ s.ip < Config.ramSize
  | .failed .outOfBounds => s.failCode = 0 ∧ Config.ramSize ≤ s.ip
  | .failed .valueOutOfRange => False
  | .failed .illegalInstruction =>
    s.ip < Config.ramSize ∧ 11000 ≤ s.failCode ∧ s.failCode ≤ Config.maxValue
  | .failed .operationLimitExceeded =>
    s.ip < Config.ramSize ∧ s.failCode ≤ Config.maxValue ∧
      ∃ n, s.maxOps = some n ∧ s.opCount = max n 1

/-- A state of a run: in range, with a sound failure record. -/
def State.Sound (s : State) : Prop := s.InRange ∧ s.RecordSound

/-- The engine has this step: it is Running and the host does not reset the block. -/
abbrev State.EngineTurn (s : State) : Prop :=
  s.runState = .running ∧ s.presented ≠ some .powerOnReset

/-- This step is a cycle that reaches step 4 with the fetched code `code`: the checks of steps 1 and 3
pass (R82, R84). -/
abbrev State.Executes (s : State) (code : Nat) : Prop :=
  s.EngineTurn ∧ s.ip < Config.ramSize ∧ s.count.limitReached = false ∧ s.mem.cellAt s.ip = code

/-- If the engine has the step from `t`, that cycle fails with `OutOfBounds` and changes nothing else
(R82). -/
def State.FailsOffEnd (t : State) : Prop :=
  t.EngineTurn →
    step t = .next { t with runState := .failed .outOfBounds, hostIn := t.hostIn.tail }

/-- Around the effect of one instruction: the whole cycle from `s` that fetches `code` ends in `t` but
for the count and this step's input (R81, R84); and if `t` has run off the end of memory, the next
cycle fails (R82). -/
def State.CycleGives (s : State) (code : Nat) (t : State) : Prop :=
  (s.Executes code →
    step s = .next { t with opCount := s.opCount + 1, hostIn := s.hostIn.tail }) ∧
  (Config.ramSize ≤ t.ip → t.FailsOffEnd)

/-- `k` steps from a state, stopping where a step has no next state: the host's `Core.run` for this
machine (Laws/Operations.lean, `runSteps_eq_run`). -/
def runSteps : Nat → State → Host.Outcome State Fault Refusal
  | 0, s => .next s
  | k + 1, s =>
    match step s with
    | .next t => runSteps k t
    | .fault r => .fault r
    | .refused r => .refused r

/-- A safe run meets no failure: the step from `s` goes on to a state that is not `Failed`. -/
def State.StepsSafely (s : State) : Prop := ∃ t, step s = .next t ∧ t.isFailed = false

end Sys2Proof.Machine
end

