-- ==== Sys2Proof/WellFormed.lean ====
section
/-! DEFINITION. Which instructions some cell value encodes (30_encoding.md R60, R64, R66). -/

namespace Sys2Proof

/-- An operand field holds 0 to 999 (R60). -/
def operandOk (operand : Nat) : Bool := decide (operand < Config.ramSize)

/-- An unknown opcode is 11 to 99 (R64). -/
def unknownOpcodeOk (opcode : Nat) : Bool :=
  decide (Config.lastDefinedOpcode < opcode) && decide (opcode ≤ Config.opcodeMax)

/-- The instruction is the decoding of some code in `[0, MAX_VALUE]` (R66). -/
def Instr.wf : Instr → Bool
  | .noop a => operandOk a
  | .take a => operandOk a
  | .add a => operandOk a
  | .sub a => operandOk a
  | .save a => operandOk a
  | .jmp a => operandOk a
  | .tst a => operandOk a
  | .inc a => operandOk a
  | .dec a => operandOk a
  | .null a => operandOk a
  | .hlt a => operandOk a
  | .unknown n a => unknownOpcodeOk n && operandOk a

end Sys2Proof
end

