-- ==== Sys2Proof/Certificates/Slice0/Obligations.lean ====
section
/-! DEFINITION. The statements for the provers, from the numbered rules of spec/. Each docstring names
the rule, or says which choice (the spec's own or the model's) the statement rests on. -/

open Sys2Proof Sys2Proof.Machine Sys2Proof.Config

/-! ## Reset -/

/-- 70_reset_and_hazards.md section 1 and the table of 10_state.md section 10: after power-on reset
every cell is 0, the block is `Idle`, no failure is recorded, the registers are 0. `Idle` and the zero
registers are the spec's own decisions D6 and D22; that no limit is set and that the host presents
nothing are the model's (log 6, log 8). -/
def Obligations.ResetStateIsPowerOnReset : Prop :=
  (∀ a, State.reset.mem.cellAt a = 0) ∧ State.reset.runState = .idle ∧ State.reset.acc = 0 ∧
    State.reset.ip = 0 ∧ State.reset.opCount = 0 ∧ State.reset.failCode = 0 ∧
    State.reset.failContext = none ∧ State.reset.maxOps = none ∧ State.reset.hostIn = []

/-- The state after reset meets the invariants that `StepKeepsRanges` and `StepKeepsFailureRecord`
carry on. -/
def Obligations.ResetStateIsSound : Prop := State.reset.Sound

/-! ## Decoder and encoder -/

/-- 30_encoding.md section 3, the round-trip law: decoding the code of a well-formed instruction gives
it back, and the code is a cell value. For opcodes 11 to 99 the spec marks the law as derived. -/
def Obligations.DecodeOfEncodeIsIdentity : Prop :=
  ∀ i : Instr, i.wf = true → encode i ≤ maxValue ∧ decode (encode i) = .instr i

/-- 30_encoding.md section 3, the converse, which the spec marks as derived: every code in range is the
code of exactly the well-formed instruction it decodes to. -/
def Obligations.EncodeOfDecodeIsIdentity : Prop :=
  ∀ code : Nat, code ≤ maxValue →
    ∃ i : Instr, decode code = .instr i ∧ i.wf = true ∧ encode i = code ∧
      ∀ j : Instr, j.wf = true → encode j = code → j = i

/-- 30_encoding.md R63: the opcode selects the instruction, row by row of the map; and
`code = opcode * 1000 + operand` encodes it. -/
def Obligations.DecodeFollowsOpcodeMap : Prop :=
  ∀ a : Nat, a < ramSize →
    decode a = .instr (.noop a) ∧ encode (.noop a) = a ∧
    decode (1000 + a) = .instr (.take a) ∧ encode (.take a) = 1000 + a ∧
    decode (2000 + a) = .instr (.add a) ∧ encode (.add a) = 2000 + a ∧
    decode (3000 + a) = .instr (.sub a) ∧ encode (.sub a) = 3000 + a ∧
    decode (4000 + a) = .instr (.save a) ∧ encode (.save a) = 4000 + a ∧
    decode (5000 + a) = .instr (.jmp a) ∧ encode (.jmp a) = 5000 + a ∧
    decode (6000 + a) = .instr (.tst a) ∧ encode (.tst a) = 6000 + a ∧
    decode (7000 + a) = .instr (.inc a) ∧ encode (.inc a) = 7000 + a ∧
    decode (8000 + a) = .instr (.dec a) ∧ encode (.dec a) = 8000 + a ∧
    decode (9000 + a) = .instr (.null a) ∧ encode (.null a) = 9000 + a ∧
    decode (10000 + a) = .instr (.hlt a) ∧ encode (.hlt a) = 10000 + a ∧
    ∀ n : Nat, 11 ≤ n → n ≤ 99 →
      decode (n * 1000 + a) = .instr (.unknown n a) ∧ encode (.unknown n a) = n * 1000 + a

/-- 30_encoding.md R73: the outputs of the decoder block, a function of the code alone; `opcode` and
`operand` are the two decimal fields of the number (R61). -/
def Obligations.DecoderBlockOutputs : Prop :=
  ∀ code : Nat,
    ((decoderBlock code).inRange = true ↔ code ≤ maxValue) ∧
    (code ≤ maxValue →
      (decoderBlock code).opcode ≤ 99 ∧ (decoderBlock code).operand ≤ 999 ∧
      1000 * (decoderBlock code).opcode + (decoderBlock code).operand = code ∧
      decode code = .instr ((decoderBlock code).kind.instr (decoderBlock code).operand) ∧
      ((decoderBlock code).kind = .unknown (decoderBlock code).opcode ↔
        11 ≤ (decoderBlock code).opcode))

/-- 30_encoding.md section 1, the range check at decode: the decoder fails for a code above 99999 and
for no other, with that code as the offending value. -/
def Obligations.DecodeFailsOnlyOutOfRange : Prop :=
  ∀ code bad : Nat, decode code = .valueOutOfRange bad ↔ maxValue < code ∧ bad = code

/-- Words written out from the spec's table 95_test_vectors.md 2.1. -/
def Obligations.DecodeOfSpecSampleCodes : Prop :=
  decode 41 = .instr (.noop 41) ∧ decode 1010 = .instr (.take 10) ∧
    decode 2021 = .instr (.add 21) ∧ decode 3999 = .instr (.sub 999) ∧
    decode 4010 = .instr (.save 10) ∧ decode 5000 = .instr (.jmp 0) ∧
    decode 6005 = .instr (.tst 5) ∧ decode 7010 = .instr (.inc 10) ∧
    decode 8020 = .instr (.dec 20) ∧ decode 9050 = .instr (.null 50) ∧
    decode 10999 = .instr (.hlt 999) ∧ decode 12345 = .instr (.unknown 12 345) ∧
    decode 99999 = .instr (.unknown 99 999) ∧ decode 100000 = .valueOutOfRange 100000

/-! ## Memory -/

/-- 20_memory.md section 1, the read-after-write law: a write to a cell that exists, of a value in range,
succeeds; a read of that cell then yields the value; a read of any other address yields what it yielded
before (which the spec marks as derived). -/
def Obligations.ReadAfterWrite : Prop :=
  ∀ (m : Memory) (a v : Nat), a < ramSize → v ≤ maxValue →
    ∃ m' : Memory, memWrite m a v = .ok m' ∧ memRead m' a = .ok v ∧
      ∀ b : Nat, b ≠ a → memRead m' b = memRead m b

/-- 20_memory.md section 1: which accesses fail, and with which failure. That a bad address is reported
before a bad value is the spec's own decision D11 (log 20). -/
def Obligations.MemoryFailureLaws : Prop :=
  ∀ (m : Memory) (a v : Nat),
    (ramSize ≤ a → memRead m a = .error .outOfBounds ∧ memWrite m a v = .error .outOfBounds) ∧
    (a < ramSize → maxValue < v → memWrite m a v = .error .valueOutOfRange)

/-- The model's canonical form (log 3): two well-formed memories that read alike at every address are
equal data. -/
def Obligations.CanonicalMemoryIsDetermined : Prop :=
  ∀ m m' : Memory, m.wf = true → m'.wf = true → (∀ a, m.cellAt a = m'.cellAt a) → m = m'

/-! ## Saturation ALU -/

/-- 42_arithmetic.md section 1: both operations stay in `[0, 99999]`, are exact where the exact result
fits, clamp to the nearer end where it does not, and are monotone in the first argument; the laws the
spec derives from that. -/
def Obligations.SaturationLaws : Prop :=
  ∀ a b : Nat, a ≤ maxValue → b ≤ maxValue →
    satAdd a b ≤ maxValue ∧ satSub a b ≤ maxValue ∧
    (a + b ≤ maxValue → satAdd a b = a + b) ∧ (maxValue ≤ a + b → satAdd a b = maxValue) ∧
    (b ≤ a → satSub a b + b = a) ∧ (satSub a b = 0 ↔ a ≤ b) ∧
    satAdd a b = satAdd b a ∧ satAdd a 0 = a ∧ satSub a 0 = a ∧ satSub a a = 0 ∧
    satAdd maxValue b = maxValue ∧ satSub 0 b = 0 ∧
    (∀ c : Nat, c ≤ a → satAdd c b ≤ satAdd a b ∧ satSub c b ≤ satSub a b)

/-! ## The instructions

In each statement the state after `exec` is written out whole, so that everything the instruction
leaves unchanged is stated as well; `CycleGives` adds the encoding's side: the cycle that fetches the
instruction's code, counts it and applies it, and the failure of the next cycle where the instruction
ran off the end of memory. -/

/-- 41_load_store.md R100, TAKE. -/
def Obligations.TakeLoadsAccumulator : Prop :=
  ∀ (a : Nat) (s : State), a < ramSize → s.mem.cellAt a ≤ maxValue →
    decode (1000 + a) = .instr (.take a) ∧
    exec (.take a) s = .next { s with acc := s.mem.cellAt a, ip := s.ip + 1 } ∧
    s.CycleGives (1000 + a) { s with acc := s.mem.cellAt a, ip := s.ip + 1 }

/-- 41_load_store.md R101, SAVE: the one cell written is that of the effective address. -/
def Obligations.SaveStoresAccumulator : Prop :=
  ∀ (a : Nat) (s : State), a < ramSize → s.acc ≤ maxValue →
    decode (4000 + a) = .instr (.save a) ∧
    ∃ m : Memory,
      (∀ b, m.cellAt b = if b = effectiveAddress a then s.acc else s.mem.cellAt b) ∧
      exec (.save a) s = .next { s with mem := m, ip := s.ip + 1 } ∧
      s.CycleGives (4000 + a) { s with mem := m, ip := s.ip + 1 }

/-- 41_load_store.md R102, NULL: accumulator and cell are cleared, whatever they held. -/
def Obligations.NullClearsAccumulatorAndCell : Prop :=
  ∀ (a : Nat) (s : State), a < ramSize →
    decode (9000 + a) = .instr (.null a) ∧
    ∃ m : Memory,
      (∀ b, m.cellAt b = if b = effectiveAddress a then 0 else s.mem.cellAt b) ∧
      exec (.null a) s = .next { s with mem := m, acc := 0, ip := s.ip + 1 } ∧
      s.CycleGives (9000 + a) { s with mem := m, acc := 0, ip := s.ip + 1 }

/-- 42_arithmetic.md R111, ADD. -/
def Obligations.AddSaturates : Prop :=
  ∀ (a : Nat) (s : State), a < ramSize → s.mem.cellAt a ≤ maxValue →
    decode (2000 + a) = .instr (.add a) ∧
    exec (.add a) s =
      .next { s with acc := min 99999 (s.acc + s.mem.cellAt a), ip := s.ip + 1 } ∧
    s.CycleGives (2000 + a)
      { s with acc := min 99999 (s.acc + s.mem.cellAt a), ip := s.ip + 1 }

/-- 42_arithmetic.md R112, SUB: the difference on integers, floored at 0. -/
def Obligations.SubFloorsAtZero : Prop :=
  ∀ (a : Nat) (s : State), a < ramSize → s.mem.cellAt a ≤ maxValue →
    decode (3000 + a) = .instr (.sub a) ∧
    ∃ r : Nat, (r : Int) = max 0 ((s.acc : Int) - (s.mem.cellAt a : Int)) ∧
      exec (.sub a) s = .next { s with acc := r, ip := s.ip + 1 } ∧
      s.CycleGives (3000 + a) { s with acc := r, ip := s.ip + 1 }

/-- 42_arithmetic.md R113, INC: the cell's value, not the old accumulator, is incremented. -/
def Obligations.IncUpdatesCellAndAccumulator : Prop :=
  ∀ (a : Nat) (s : State), a < ramSize → s.mem.cellAt a ≤ maxValue →
    decode (7000 + a) = .instr (.inc a) ∧
    ∃ (r : Nat) (m : Memory), r = min 99999 (s.mem.cellAt a + 1) ∧
      (∀ b, m.cellAt b = if b = effectiveAddress a then r else s.mem.cellAt b) ∧
      exec (.inc a) s = .next { s with mem := m, acc := r, ip := s.ip + 1 } ∧
      s.CycleGives (7000 + a) { s with mem := m, acc := r, ip := s.ip + 1 }

/-- 42_arithmetic.md R114, DEC. -/
def Obligations.DecUpdatesCellAndAccumulator : Prop :=
  ∀ (a : Nat) (s : State), a < ramSize → s.mem.cellAt a ≤ maxValue →
    decode (8000 + a) = .instr (.dec a) ∧
    ∃ (r : Nat) (m : Memory), (r : Int) = max 0 ((s.mem.cellAt a : Int) - 1) ∧
      (∀ b, m.cellAt b = if b = effectiveAddress a then r else s.mem.cellAt b) ∧
      exec (.dec a) s = .next { s with mem := m, acc := r, ip := s.ip + 1 } ∧
      s.CycleGives (8000 + a) { s with mem := m, acc := r, ip := s.ip + 1 }

/-- 43_control.md R120, NOOP, for every value of its operand digits. -/
def Obligations.NoopOnlyAdvances : Prop :=
  ∀ (a : Nat) (s : State), a < ramSize →
    decode a = .instr (.noop a) ∧ exec (.noop a) s = .next { s with ip := s.ip + 1 } ∧
    s.CycleGives a { s with ip := s.ip + 1 }

/-- 43_control.md R121, JMP. -/
def Obligations.JmpSetsInstructionPointer : Prop :=
  ∀ (a : Nat) (s : State), a < ramSize →
    decode (5000 + a) = .instr (.jmp a) ∧ exec (.jmp a) s = .next { s with ip := a } ∧
    s.CycleGives (5000 + a) { s with ip := a }

/-- 43_control.md R122, TST: loads the cell, and passes over one cell when the value is 0. -/
def Obligations.TstLoadsAndSkipsOnZero : Prop :=
  ∀ (a : Nat) (s : State), a < ramSize → s.mem.cellAt a ≤ maxValue →
    decode (6000 + a) = .instr (.tst a) ∧
    (s.mem.cellAt a ≠ 0 →
      exec (.tst a) s = .next { s with acc := s.mem.cellAt a, ip := s.ip + 1 } ∧
      s.CycleGives (6000 + a) { s with acc := s.mem.cellAt a, ip := s.ip + 1 }) ∧
    (s.mem.cellAt a = 0 →
      exec (.tst a) s = .next { s with acc := 0, ip := s.ip + 2 } ∧
      s.CycleGives (6000 + a) { s with acc := 0, ip := s.ip + 2 })

/-- 43_control.md section 1, HLT, for every value of its operand digits. That `ip` stays on the HLT is
the spec's own decision D8 (log 13). -/
def Obligations.HltHalts : Prop :=
  ∀ (a : Nat) (s : State), a < ramSize →
    decode (10000 + a) = .instr (.hlt a) ∧
    exec (.hlt a) s = .next { s with runState := .halted } ∧
    s.CycleGives (10000 + a) { s with runState := .halted }

/-- 60_exceptions.md R153: executing an opcode 11 to 99 is the failure `IllegalInstruction`, which
records the code; in the whole cycle the count has been incremented and nothing else has changed.
Merely holding, loading, storing or listing (the host's read of a cell) such a value is no failure. -/
def Obligations.UnknownOpcodeFailsWhenExecuted : Prop :=
  ∀ (n a : Nat) (s : State), 11 ≤ n → n ≤ 99 → a < ramSize →
    decode (n * 1000 + a) = .instr (.unknown n a) ∧
    exec (.unknown n a) s =
      .next { s with runState := .failed .illegalInstruction, failCode := n * 1000 + a } ∧
    (s.Executes (n * 1000 + a) →
      step s = .next { s with
        runState := .failed .illegalInstruction
        failCode := n * 1000 + a
        opCount := s.opCount + 1
        hostIn := s.hostIn.tail }) ∧
    (∀ b, b < ramSize → s.mem.cellAt b = n * 1000 + a →
      exec (.take b) s = .next { s with acc := n * 1000 + a, ip := s.ip + 1 }) ∧
    (∀ b, b < ramSize → s.acc = n * 1000 + a →
      ∃ m : Memory, m.cellAt b = n * 1000 + a ∧
        exec (.save b) s = .next { s with mem := m, ip := s.ip + 1 }) ∧
    (∀ b, b < ramSize → s.mem.cellAt b = n * 1000 + a → s.runState ≠ .running →
      s.presented = some (.readCell b) →
      s.hostReply = some (.value (n * 1000 + a)) ∧
      step s = .next { s with hostIn := s.hostIn.tail })

/-- The model's choice (log 4), for what 93_implementation_defined.md U4 gives no result: an
instruction that reads a cell above 99999 completes, with some value in range in place of the cell's,
the same for every reading instruction. -/
def Obligations.ReadOfOutOfRangeCellCompletes : Prop :=
  ∀ (a : Nat) (s : State), a < ramSize → maxValue < s.mem.cellAt a →
    ∃ v : Nat, v ≤ maxValue ∧
      exec (.take a) s = .next { s with acc := v, ip := s.ip + 1 } ∧
      exec (.add a) s = .next { s with acc := satAdd s.acc v, ip := s.ip + 1 } ∧
      exec (.sub a) s = .next { s with acc := satSub s.acc v, ip := s.ip + 1 } ∧
      exec (.tst a) s = .next { s with acc := v, ip := if v = 0 then s.ip + 2 else s.ip + 1 } ∧
      exec (.inc a) s =
        .next { s with mem := s.mem.put a (satAdd v 1), acc := satAdd v 1, ip := s.ip + 1 } ∧
      exec (.dec a) s =
        .next { s with mem := s.mem.put a (satSub v 1), acc := satSub v 1, ip := s.ip + 1 }

/-- 40_cycle_fsm.md section 3, the failures of an effect's own accesses, "neither can occur" in a
reachable state: an address the memory does not have (only an ill-formed instruction gives one,
log 17) raises `OutOfBounds`, a store of an accumulator above 99999 raises `ValueOutOfRange`, and the
effect is not applied. That `fail_code` then holds the fetched code is log 5. -/
def Obligations.AccessFailuresAreRaisedWhole : Prop :=
  ∀ (a : Nat) (s : State),
    (ramSize ≤ a → ∀ i : Instr,
      i ∈ [Instr.take a, .add a, .sub a, .tst a, .inc a, .dec a, .save a, .null a] →
      exec i s = .next { s with runState := .failed .outOfBounds, failCode := encode i }) ∧
    (a < ramSize → maxValue < s.acc →
      exec (.save a) s =
        .next { s with runState := .failed .valueOutOfRange, failCode := encode (.save a) })

/-! ## What every instruction does to one kind of state -/

/-- 43_control.md section 2, the program-counter logic: the next `ip`, over all instructions that a cycle
can apply; it is not reduced modulo 1000, and the check of the next cycle catches the overflow. That HLT
leaves `ip` unchanged is the spec's own decision D8 (log 13, DESIGN CHOICE). -/
def Obligations.NextIpIsThatOfPcLogic : Prop :=
  ∀ (i : Instr) (s t : State), i.wf = true → s.mem.cellAt i.operand ≤ maxValue →
    s.runState = .running → exec i s = .next t →
    t.ip =
      (if t.isFailed = true then s.ip
      else if i.kind = .jmp then i.operand
      else if i.kind = .tst ∧ s.mem.cellAt i.operand = 0 then s.ip + 2
      else if i.kind = .hlt then s.ip
      else s.ip + 1) ∧
    (ramSize ≤ t.ip → t.FailsOffEnd)

/-- 20_memory.md section 7, the write column: only SAVE, INC, DEC and NULL write, one cell, with the
value that `acc` then holds; a cycle that fails makes no write. -/
def Obligations.OnlyOperandCellIsWritten : Prop :=
  ∀ (i : Instr) (s t : State), i.wf = true → exec i s = .next t →
    (t.mem = s.mem ∨
      (i.kind ∈ [Kind.save, .inc, .dec, .null] ∧ t.mem.cellAt i.operand = t.acc ∧
        ∀ b, b ≠ i.operand → t.mem.cellAt b = s.mem.cellAt b)) ∧
    (t.runState ≠ s.runState → t.mem = s.mem)

/-- 20_memory.md section 7, the read column: what an instruction does depends on memory at its operand
only, and only for TAKE, ADD, SUB, TST, INC and DEC. -/
def Obligations.OnlyOperandCellIsRead : Prop :=
  ∀ (i : Instr) (s t : State) (m : Memory), i.wf = true → exec i s = .next t →
    (i.kind ∈ [Kind.take, .add, .sub, .tst, .inc, .dec] →
      m.cellAt i.operand = s.mem.cellAt i.operand) →
    ∃ t' : State, exec i { s with mem := m } = .next t' ∧ { t' with mem := t.mem } = t ∧
      (i.kind ∈ [Kind.save, .inc, .dec, .null] →
        t'.mem.cellAt i.operand = t.mem.cellAt i.operand ∨ t'.mem = m)

/-- 70_reset_and_hazards.md R186: TAKE, TST, INC, DEC and NULL write `acc` without reading it: the old
accumulator has no part in anything they do. -/
def Obligations.OldAccumulatorIsLost : Prop :=
  ∀ (i : Instr) (s : State) (x : Nat), i.wf = true →
    i.kind ∈ [Kind.take, .tst, .inc, .dec, .null] →
    exec i { s with acc := x } = exec i s

/-- 10_state.md section 5: no instruction reads or writes the operation counter or the limit, and none
reads the failure record; only HLT and a failure write `run_state`. -/
def Obligations.ControlStateIsOutOfReach : Prop :=
  ∀ (i : Instr) (s t : State), exec i s = .next t →
    t.opCount = s.opCount ∧ t.maxOps = s.maxOps ∧ t.hostIn = s.hostIn ∧
    (t.runState = s.runState ∨ (i.kind = .hlt ∧ t.runState = .halted) ∨ t.isFailed = true) ∧
    ∀ (n c : Nat) (limit : Option Nat),
      ∃ t' : State, exec i { s with opCount := n, failCode := c, maxOps := limit } = .next t' ∧
        t'.mem = t.mem ∧ t'.acc = t.acc ∧ t'.ip = t.ip ∧ t'.runState = t.runState

/-- 20_memory.md R53: a store is seen by a fetch of that cell, at once: any later cycle that fetches
there, with no store between, applies the instruction that the stored value encodes. The stored value
is what `acc` holds after a SAVE, INC, DEC or NULL. The cycle that makes the store applies the copy
fetched before it, also where the operand is the instruction's own cell. -/
def Obligations.StoreIsSeenByLaterFetch : Prop :=
  ∀ (i : Instr) (s t : State), i.wf = true → s.acc ≤ maxValue →
    i.kind ∈ [Kind.save, .inc, .dec, .null] → exec i s = .next t →
    (s.Executes (encode i) →
      step s = exec i { s with opCount := s.opCount + 1, hostIn := s.hostIn.tail }) ∧
    ∀ (j : Instr) (u : State), u.mem = t.mem → u.ip = i.operand → u.EngineTurn →
      u.count.limitReached = false → decode t.acc = .instr j →
      step u = exec j { u with opCount := u.opCount + 1, hostIn := u.hostIn.tail }

/-! ## The cycle -/

/-- 40_cycle_fsm.md section 2: when the checks of steps 1 and 3 pass and the fetched code decodes to an
instruction, the step is that instruction's effect on the state with the fetch counted and this step's
host input taken. -/
def Obligations.StepRunsDecodedInstruction : Prop :=
  ∀ (s : State) (code : Nat) (i : Instr), s.Executes code → decode code = .instr i →
    step s = exec i { s with opCount := s.opCount + 1, hostIn := s.hostIn.tail }

/-- 40_cycle_fsm.md R82: a cycle that starts with `ip` outside `[0, 999]` fails before anything else:
memory, `acc`, `ip` and the count keep their values, and so does `fail_code`; the context recorded is
the value of `ip`. -/
def Obligations.CycleOutsideMemoryFails : Prop :=
  ∀ s : State, s.EngineTurn → 1000 ≤ s.ip →
    ∃ t : State, step s = .next t ∧ t.failContext = some s.ip ∧
      t = { s with runState := .failed .outOfBounds, hostIn := s.hostIn.tail }

/-- 60_exceptions.md R154: the operation limit. A cycle whose incremented count reaches the limit fails
with the instruction not applied; a cycle below it or without a limit does not fail so; and in the
executions that R84 allows (`UnderLimit`) the count recorded is the limit, or 1 for the limit 0. What
the limit 0 does follows the spec's decision D5 (log 7). -/
def Obligations.OperationLimitEndsExecution : Prop :=
  ∀ s : State, s.EngineTurn → s.ip < ramSize →
    (∀ n, s.maxOps = some n → n ≤ s.opCount + 1 →
      step s = .next { s with
        runState := .failed .operationLimitExceeded
        failCode := s.mem.cellAt s.ip
        opCount := s.opCount + 1
        hostIn := s.hostIn.tail } ∧
      (s.UnderLimit → (1 ≤ n → s.opCount + 1 = n) ∧ (n = 0 → s.opCount + 1 = 1))) ∧
    ((s.maxOps = none ∨ ∃ n, s.maxOps = some n ∧ s.opCount + 1 < n) →
      ∃ t, step s = .next t ∧ t.runState ≠ .failed .operationLimitExceeded)

/-- 40_cycle_fsm.md R89: the order of the checks, one failure at most, the first in the order; the
effect's own accesses cannot fail when `acc` is in range. -/
def Obligations.FailurePriorityOfCycle : Prop :=
  ∀ s : State, s.EngineTurn →
    ∃ t : State, step s = .next t ∧
      (ramSize ≤ s.ip → t.runState = .failed .outOfBounds) ∧
      (s.ip < ramSize → s.count.limitReached = true →
        t.runState = .failed .operationLimitExceeded) ∧
      (s.ip < ramSize → s.count.limitReached = false → maxValue < s.mem.cellAt s.ip →
        t.runState = .failed .valueOutOfRange ∧ t.failCode = s.mem.cellAt s.ip) ∧
      (s.ip < ramSize → s.count.limitReached = false → 11000 ≤ s.mem.cellAt s.ip →
        s.mem.cellAt s.ip ≤ maxValue → t.runState = .failed .illegalInstruction) ∧
      (s.ip < ramSize → s.count.limitReached = false → s.mem.cellAt s.ip < 11000 →
        s.acc ≤ maxValue → t.isFailed = false)

/-- 40_cycle_fsm.md section 3, determinism and the closed set of failures: from every state there is a
next state, and every instruction, well-formed or not, has one: the machine meets nothing it has no
meaning for. The spec gives a next state for `Running` only. The model's choices, each DEDUCED: that a
failure is a next state and `Fault` is empty (log 16), that a machine that is not Running has a next
state (log 12), that an ill-formed instruction has an effect (log 17). -/
def Obligations.EveryStepHasNextState : Prop :=
  (∀ s : State, ∃ t : State, step s = .next t) ∧
    ∀ (i : Instr) (s : State), ∃ t : State, exec i s = .next t

/-- 40_cycle_fsm.md section 3, precision, which the spec marks as derived: a cycle that fails has
changed nothing but the count, `run_state` and the failure record. Where the context is held is the
spec's own decision D10. That `fail_code` is the fetched code also where a SAVE of an `acc` above 99999
fails is the model's choice (log 5, DEDUCED); no run reaches such an `acc`. -/
def Obligations.FailuresArePrecise : Prop :=
  ∀ (s t : State) (f : Failure), s.runState = .running → step s = .next t →
    t.runState = .failed f →
    t.mem = s.mem ∧ t.acc = s.acc ∧ t.ip = s.ip ∧ t.maxOps = s.maxOps ∧
      (f = .outOfBounds ↔ ramSize ≤ s.ip) ∧
      (f = .outOfBounds → t.opCount = s.opCount ∧ t.failCode = s.failCode) ∧
      (f ≠ .outOfBounds → t.opCount = s.opCount + 1 ∧ t.failCode = s.mem.cellAt s.ip)

/-- 60_exceptions.md section 1, where the context of each failure is held, the spec's decision D10: the
offending address, the code, or the count. -/
def Obligations.FailureContextIsHeld : Prop :=
  ∀ (s t : State) (f : Failure), s.runState = .running → s.acc ≤ maxValue → step s = .next t →
    t.runState = .failed f →
    t.failContext = some
      (match f with
        | .outOfBounds => s.ip
        | .valueOutOfRange => s.mem.cellAt s.ip
        | .illegalInstruction => s.mem.cellAt s.ip
        | .operationLimitExceeded => s.opCount + 1)

/-- 10_state.md section 5 and 60_exceptions.md section 5: the operation counter counts exactly the
cycles that pass step 1, and the limit is constant during an execution. -/
def Obligations.OpCountCountsFetches : Prop :=
  ∀ s t : State, s.EngineTurn → step s = .next t →
    t.maxOps = s.maxOps ∧ (s.ip < ramSize → t.opCount = s.opCount + 1) ∧
      (ramSize ≤ s.ip → t.opCount = s.opCount)

/-- 40_cycle_fsm.md section 1, the transition table of `run_state`; `Idle` and the start event are the
spec's decision D6. `Halted` is entered only by a cycle that applies HLT. -/
def Obligations.RunStateTransitions : Prop :=
  ∀ s t : State, step s = .next t →
    (s.presented = some .powerOnReset ∧ t.runState = .idle) ∨
    (s.runState = .running ∧
      (t.runState = .running ∨ (∃ f, t.runState = .failed f) ∨
        (t.runState = .halted ∧ ∃ a, decode (s.mem.cellAt s.ip) = .instr (.hlt a)))) ∨
    (s.runState ≠ .running ∧ t.runState = s.runState) ∨
    (s.runState ≠ .running ∧ (∃ n, s.presented = some (.start n)) ∧ t.runState = .running)

/-- 40_cycle_fsm.md section 3, terminal states: with no request, a machine that is not Running keeps
every value it has. That the registers are held is the spec's decision D7 (log 13). -/
def Obligations.StoppedMachineHoldsState : Prop :=
  ∀ s : State, s.runState ≠ .running → s.presented = none →
    step s = .next { s with hostIn := s.hostIn.tail }

/-! ## Invariants -/

/-- 10_state.md section 8, which the spec marks as derived: every step keeps every cell and `acc` in
`[0, 99999]`, `ip` in `[0, 1001]`, and the memory in its canonical form (log 3). -/
def Obligations.StepKeepsRanges : Prop :=
  ∀ s t : State, s.InRange → step s = .next t → t.InRange

/-- 10_state.md section 5 and 60_exceptions.md section 1: every step keeps the failure record as each
failure leaves it: no record outside `Failed`, `ValueOutOfRange` never, the illegal code an illegal
code, the count that exceeded the limit the limit itself (for the limit 0, D5: log 7). -/
def Obligations.StepKeepsFailureRecord : Prop :=
  ∀ s t : State, s.InRange → s.RecordSound → step s = .next t → t.RecordSound

/-! ## Executions -/

/-- 70_reset_and_hazards.md section 3: with the limit `n`, `n >= 1`, every execution ends within `n`
fetches: from any state in which `c` fetches are counted, in `n - c` further cycles, or in one if the
count is at the limit already. -/
def Obligations.LimitBoundsExecution : Prop :=
  ∀ (n : Nat) (s : State), 1 ≤ n → s.hostIn = [] → s.maxOps = some n →
    ∃ (k : Nat) (t : State), k ≤ max 1 (n - s.opCount) ∧
      runSteps k s = .next t ∧ t.runState ≠ .running

/-- 70_reset_and_hazards.md section 3: without a limit the execution can be infinite: from a jump to
itself the engine is Running after any number of cycles, and only the count has changed. -/
def Obligations.SelfJumpNeverEnds : Prop :=
  ∀ (k : Nat) (s : State), s.runState = .running → s.hostIn = [] → s.maxOps = none →
    s.ip < ramSize → s.mem.cellAt s.ip = 5000 + s.ip →
    runSteps k s = .next { s with opCount := s.opCount + k }

/-- 40_cycle_fsm.md section 2: a limit changes nothing but where an execution is cut off: a run without
a limit whose count stays below `n` is, state by state, the run with the limit `n`. -/
def Obligations.LimitOnlyCutsExecutionShort : Prop :=
  ∀ (k n : Nat) (s t : State), s.hostIn = [] →
    runSteps k { s with maxOps := none } = .next t → t.opCount < n →
    runSteps k { s with maxOps := some n } = .next { t with maxOps := some n }

/-! ## The host -/

/-- 50_interfaces.md section 2, start of an execution; that a start does not touch memory is the spec's
decision D21. -/
def Obligations.StartBeginsFreshExecution : Prop :=
  ∀ (s : State) (limit : Option Nat), s.runState ≠ .running →
    s.presented = some (.start limit) →
    step s = .next
      { mem := s.mem, acc := 0, ip := 0, opCount := 0, runState := .running, failCode := 0,
        maxOps := limit, hostIn := s.hostIn.tail }

/-- 50_interfaces.md section 2, `set_cell`. Checks, then overwrites the one cell; a failed check leaves
the cell and `run_state` as they are and is told to the host; allowed only while not Running. That the
address is checked first is the spec's own decision D11 (log 20), the busy answer its decision D15. -/
def Obligations.SetCellWritesOrTellsFailure : Prop :=
  ∀ (s : State) (a v : Nat), s.presented = some (.setCell a v) →
    (s.runState = .running → s.hostReply = some .busy ∧
      step s = step { s with hostIn := none :: s.hostIn.tail }) ∧
    (s.runState ≠ .running → a < ramSize → v ≤ maxValue →
      s.hostReply = some .done ∧
      ∃ m : Memory, (∀ b, m.cellAt b = if b = a then v else s.mem.cellAt b) ∧
        step s = .next { s with mem := m, hostIn := s.hostIn.tail }) ∧
    (s.runState ≠ .running → ramSize ≤ a →
      s.hostReply = some (.failed .outOfBounds) ∧
      step s = .next { s with hostIn := s.hostIn.tail }) ∧
    (s.runState ≠ .running → a < ramSize → maxValue < v →
      s.hostReply = some (.failed .valueOutOfRange) ∧
      step s = .next { s with hostIn := s.hostIn.tail })

/-- 50_interfaces.md R134: a host read, while not Running, of any cell; an address of 1000 or more gives
`OutOfBounds` and no data; reading changes nothing. -/
def Obligations.HostReadsCell : Prop :=
  ∀ (s : State) (a : Nat), s.runState ≠ .running → s.presented = some (.readCell a) →
    step s = .next { s with hostIn := s.hostIn.tail } ∧
    (a < ramSize → s.hostReply = some (.value (s.mem.cellAt a))) ∧
    (ramSize ≤ a → s.hostReply = some (.failed .outOfBounds))

/-- 50_interfaces.md section 2 and 20_memory.md section 6: while Running every request but reset is
answered busy and has no effect: the step is the one with nothing presented. That is the spec's
decision D15. -/
def Obligations.RequestWhileRunningHasNoEffect : Prop :=
  ∀ (s : State) (r : HostRequest), s.runState = .running → s.presented = some r →
    r ≠ .powerOnReset →
    s.hostReply = some .busy ∧ step s = step { s with hostIn := none :: s.hostIn.tail }

/-- 50_interfaces.md section 2: power-on reset acts at any time, Running or not; its values are the
spec's decisions D6 and D22 and the model's for the limit (log 6). -/
def Obligations.PowerOnResetActsAtAnyTime : Prop :=
  ∀ s : State, s.presented = some .powerOnReset →
    step s = .next { State.reset with hostIn := s.hostIn.tail }

/-- 50_interfaces.md section 2, program load: the loader's writes put line `k` into cell `k` and touch
no other cell and no register. -/
def Obligations.LoadPutsLineIntoItsCell : Prop :=
  ∀ (lines : List Instr) (s : State) (later : List (Option HostRequest)),
    s.runState ≠ .running → lines.length ≤ ramSize → (∀ i ∈ lines, i.wf = true) →
    s.hostIn = loadRequests 0 lines ++ later →
    ∃ m : Memory,
      runSteps lines.length s = .next { s with mem := m, hostIn := later } ∧
      (∀ (k : Nat) (h : k < lines.length), m.cellAt k = encode lines[k]) ∧
      ∀ k : Nat, lines.length ≤ k → m.cellAt k = s.mem.cellAt k

/-- 50_interfaces.md section 3 and 40_cycle_fsm.md section 2, the trace record with the fields of the
spec's decision D14: one for each cycle that applied an instruction, none for a cycle that failed; it
shows the instruction and the state after it. -/
def Obligations.TraceRecordDescribesCycle : Prop :=
  ∀ s t : State, step s = .next t →
    (s.emitted = none ↔ ¬ s.EngineTurn ∨ t.isFailed = true) ∧
    ∀ r : TraceRecord, s.emitted = some r →
      r.tIp = s.ip ∧ r.tOpcode = s.mem.cellAt s.ip / 1000 ∧
      r.tOperand = s.mem.cellAt s.ip % 1000 ∧ r.tOpcode ≤ 10 ∧
      r.tAcc = t.acc ∧ r.tNextIp = t.ip ∧
      (r.tMemWritten = true ↔ r.tOpcode ∈ [4, 7, 8, 9]) ∧
      r.tMemValue = if r.tOpcode ∈ [0, 5, 10] then 0 else t.mem.cellAt r.tOperand

/-- 50_interfaces.md section 4 and the codes of 60_exceptions.md section 1, with the reference widths and
codes of the spec's decisions D2, D6, D9 and D19 (log 21): every run state and every failure shows its
own code; the result outputs are held out exactly while not Running (40_cycle_fsm.md section 3, and D7
for `acc` and `ip`), and in a sound state they show the numbers themselves. -/
def Obligations.PortsShowHeldState : Prop :=
  ∀ s : State,
    s.ports.runState.toNat =
      (match s.runState with
        | .idle => 0
        | .running => 1
        | .halted => 2
        | .failed _ => 3) ∧
    s.ports.failReason.toNat =
      (match s.runState with
        | .idle => 0
        | .running => 0
        | .halted => 0
        | .failed .outOfBounds => 1
        | .failed .valueOutOfRange => 2
        | .failed .illegalInstruction => 3
        | .failed .operationLimitExceeded => 4) ∧
    (s.runState = .running → s.ports.held = none) ∧
    (s.runState ≠ .running → ∃ h : HeldPorts, s.ports.held = some h ∧ h.opCount = s.opCount ∧
      (s.Sound → h.dbgAcc.toNat = s.acc ∧ h.dbgIp.toNat = s.ip ∧ h.failCode.toNat = s.failCode))

/-- 40_cycle_fsm.md section 3, what can be observed: during a run nothing but the trace, and that the
block is Running: the ports hold nothing out, and a request is answered busy (the spec's decision D15;
log 21). So two runs that emit the same record at a step and are asked the same cannot be told apart at
it, whatever memory, registers and limit they have. No trace is emitted while not Running. -/
def Obligations.OnlyTraceIsObservableDuringRun : Prop :=
  (∀ s : State, s.runState = .running →
    s.observation.ports.runState.toNat = 1 ∧ s.observation.ports.failReason.toNat = 0 ∧
    s.observation.ports.held = none ∧ s.observation.trace = s.emitted ∧
    s.observation.reply =
      (match s.presented with
        | none => none
        | some .powerOnReset => none
        | some (.start _) => some .busy
        | some (.setCell _ _) => some .busy
        | some (.readCell _) => some .busy)) ∧
  (∀ s u : State, s.runState = .running → u.runState = .running →
    s.presented = u.presented → s.emitted = u.emitted → s.observation = u.observation) ∧
  (∀ s : State, s.runState ≠ .running → s.observation.trace = none)

/-- The model's convention (log 10, log 11): a cell value placed by `withFetchWord` is what the very
next step fetches, from any state; if it decodes to an instruction the step is that instruction's
effect, with the fetch counted and the host's later inputs as they were. -/
def Obligations.PlacedWordIsRunNext : Prop :=
  ∀ (s : State) (nbits w : Nat) (i : Instr), decodeTableWord nbits w = some i →
    step (s.withFetchWord nbits w) =
      exec i { s.withFetchWord nbits w with opCount := s.opCount + 1, hostIn := s.hostIn } ∧
    (s.withFetchWord nbits w).mem.cellAt (s.withFetchWord nbits w).ip = w ∧
    ∀ b, b ≠ (s.withFetchWord nbits w).ip →
      (s.withFetchWord nbits w).mem.cellAt b = s.mem.cellAt b
end

