-- ==== Sys2Proof/Laws/Memory.lean ====
section
/-! SUPPORT. The laws of the memory: what a read gives after a write, and that every memory operation
keeps the canonical form and the range of the cells (20_memory.md R40, R43; 10_state.md R31). -/

namespace Sys2Proof.Machine

/-! ## Reading what was written -/

theorem lookupCell_insertCell (l : List (Nat × Nat)) (a v b : Nat)
    (fresh : ∀ c ∈ l, c.1 ≠ a) :
    lookupCell (insertCell a v l) b = if b = a then v else lookupCell l b := by
  induction l with
  | nil => simp [insertCell, lookupCell]
  | cons c rest ih =>
    have hc := fresh c (by simp)
    have ih := ih fun d hd => fresh d (by simp [hd])
    by_cases hlt : a < c.1
    · simp [insertCell, lookupCell, hlt]
    · by_cases hb : b = c.1
      · simp [insertCell, lookupCell, hlt, hb, hc]
      · simp [insertCell, lookupCell, hlt, hb, ih]

theorem lookupCell_filter (l : List (Nat × Nat)) (a b : Nat) :
    lookupCell (l.filter (fun c => c.1 != a)) b = if b = a then unlistedCell else lookupCell l b := by
  induction l with
  | nil => simp [lookupCell]
  | cons c rest ih =>
    by_cases hc : c.1 = a
    · rw [List.filter_cons_of_neg (by simp [hc]), ih]
      by_cases hb : b = a <;> simp [hc, hb, lookupCell]
    · by_cases hb : b = a
      · subst hb; simp [hc, ih, lookupCell, Ne.symm hc]
      · simp [hc, ih, hb, lookupCell]

/-- What any cell reads as after a write (R43, R40): the written cell gives the value, every other
cell what it gave before. It needs no canonical form. -/
theorem cellAt_put (m : Memory) (a v b : Nat) :
    (m.put a v).cellAt b = if b = a then v else m.cellAt b := by
  unfold Memory.put Memory.cellAt
  by_cases hv : v = unlistedCell
  · simp [hv, lookupCell_filter]
  · simp only [hv, if_false]
    rw [lookupCell_insertCell _ _ _ _ (by simp), lookupCell_filter]
    by_cases hb : b = a <;> simp [hb]

@[simp] theorem cellAt_put_same (m : Memory) (a v : Nat) : (m.put a v).cellAt a = v := by
  simp [cellAt_put]

theorem cellAt_put_other (m : Memory) {a b : Nat} (v : Nat) (h : b ≠ a) :
    (m.put a v).cellAt b = m.cellAt b := by
  simp [cellAt_put, h]

/-! ## The canonical form -/

theorem canonicalFrom_mono {low low' : Nat} (hl : low' ≤ low) {l : List (Nat × Nat)}
    (h : canonicalFrom low l = true) : canonicalFrom low' l = true := by
  cases l with
  | nil => rfl
  | cons c rest =>
    simp only [canonicalFrom, Bool.and_eq_true, decide_eq_true_eq] at h ⊢
    exact ⟨⟨⟨by omega, h.1.1.2⟩, h.1.2⟩, h.2⟩

theorem canonicalFrom_filter {low a : Nat} {l : List (Nat × Nat)}
    (h : canonicalFrom low l = true) :
    canonicalFrom low (l.filter (fun c => c.1 != a)) = true := by
  induction l generalizing low with
  | nil => rfl
  | cons c rest ih =>
    simp only [canonicalFrom, Bool.and_eq_true, decide_eq_true_eq] at h
    by_cases hc : c.1 = a
    · simpa [hc] using canonicalFrom_mono (by omega) (ih h.2)
    · simp [hc, canonicalFrom, h.1.1.1, h.1.1.2, h.1.2, ih h.2]

theorem canonicalFrom_insertCell {low a v : Nat} {l : List (Nat × Nat)} (hl : low ≤ a)
    (ha : a < Config.ramSize) (hv : v ≠ unlistedCell) (fresh : ∀ c ∈ l, c.1 ≠ a)
    (h : canonicalFrom low l = true) : canonicalFrom low (insertCell a v l) = true := by
  induction l generalizing low with
  | nil => simp [insertCell, canonicalFrom, hl, ha, hv]
  | cons c rest ih =>
    simp only [canonicalFrom, Bool.and_eq_true, decide_eq_true_eq] at h
    have hc := fresh c (by simp)
    by_cases hlt : a < c.1
    · simp [insertCell, hlt, canonicalFrom, hl, ha, hv, h.1.1.2, h.1.2, h.2]
    · have := ih (low := c.1 + 1) (by omega) (fun d hd => fresh d (by simp [hd])) h.2
      simp [insertCell, hlt, canonicalFrom, h.1.1.1, h.1.1.2, h.1.2, this]

/-- A write to a cell that exists keeps the canonical form. -/
theorem wf_put {m : Memory} {a : Nat} (v : Nat) (ha : a < Config.ramSize) (h : m.wf = true) :
    (m.put a v).wf = true := by
  unfold Memory.put Memory.wf
  by_cases hv : v = unlistedCell
  · simpa [hv] using canonicalFrom_filter h
  · simpa [hv] using canonicalFrom_insertCell (by omega) ha hv (by simp) (canonicalFrom_filter h)

/-! ## The range of the cells -/

theorem mem_insertCell {a v : Nat} {l : List (Nat × Nat)} {c : Nat × Nat}
    (h : c ∈ insertCell a v l) : c = (a, v) ∨ c ∈ l := by
  induction l with
  | nil => simpa [insertCell] using h
  | cons d rest ih =>
    by_cases hlt : a < d.1
    · simpa [insertCell, hlt] using h
    · simp only [insertCell, hlt, if_false, List.mem_cons] at h
      rcases h with h | h
      · simp [h]
      · rcases ih h with h | h <;> simp [h]

/-- A write of a value in range keeps every cell in range. -/
theorem inRange_put {m : Memory} {v : Nat} (a : Nat) (hv : v ≤ Config.maxValue)
    (h : m.inRange = true) : (m.put a v).inRange = true := by
  simp only [Memory.inRange, List.all_eq_true, decide_eq_true_eq] at h ⊢
  intro c hc
  unfold Memory.put at hc
  split at hc
  · exact h c (List.mem_filter.mp hc).1
  · rcases mem_insertCell hc with rfl | hc
    · exact hv
    · exact h c (List.mem_filter.mp hc).1

/-- In a memory in range every read is in range. -/
theorem cellAt_le {m : Memory} (h : m.inRange = true) (a : Nat) : m.cellAt a ≤ Config.maxValue := by
  simp only [Memory.inRange, List.all_eq_true, decide_eq_true_eq] at h
  unfold Memory.cellAt
  generalize m.entries = l at h
  induction l with
  | nil => simp [lookupCell, unlistedCell]
  | cons c rest ih =>
    unfold lookupCell
    split
    · exact h c (by simp)
    · exact ih fun d hd => h d (by simp [hd])

/-! ## The two checked operations -/

/-- Everything `MemRead` can do (R41). -/
theorem memRead_ok_iff {m : Memory} {addr v : Nat} :
    memRead m addr = .ok v ↔ addr < Config.ramSize ∧ v = m.cellAt addr := by
  unfold memRead
  split <;> simp <;> omega

theorem memRead_error_iff {m : Memory} {addr : Nat} {f : Failure} :
    memRead m addr = .error f ↔ Config.ramSize ≤ addr ∧ f = .outOfBounds := by
  unfold memRead
  split <;> simp <;> first | omega | grind

/-- Everything `MemWrite` can do (R42). -/
theorem memWrite_ok_iff {m m' : Memory} {addr v : Nat} :
    memWrite m addr v = .ok m' ↔
      addr < Config.ramSize ∧ v ≤ Config.maxValue ∧ m' = m.put addr v := by
  unfold memWrite
  grind

theorem memWrite_error_iff {m : Memory} {addr v : Nat} {f : Failure} :
    memWrite m addr v = .error f ↔
      (Config.ramSize ≤ addr ∧ f = .outOfBounds) ∨
        (addr < Config.ramSize ∧ Config.maxValue < v ∧ f = .valueOutOfRange) := by
  unfold memWrite
  grind

end Sys2Proof.Machine
end

