-- ==== Sys2Proof/Laws/State.lean ====
section
/-! SUPPORT. One lemma per field per named update of State, each true by rfl, so that no proof unfolds
a record update. -/

namespace Sys2Proof.Machine

@[simp] theorem State.setAcc_mem (s : State) (v : Nat) : (s.setAcc v).mem = s.mem := rfl
@[simp] theorem State.setAcc_acc (s : State) (v : Nat) : (s.setAcc v).acc = v := rfl
@[simp] theorem State.setAcc_ip (s : State) (v : Nat) : (s.setAcc v).ip = s.ip := rfl
@[simp] theorem State.setAcc_opCount (s : State) (v : Nat) : (s.setAcc v).opCount = s.opCount := rfl
@[simp] theorem State.setAcc_runState (s : State) (v : Nat) : (s.setAcc v).runState = s.runState := rfl
@[simp] theorem State.setAcc_failCode (s : State) (v : Nat) : (s.setAcc v).failCode = s.failCode := rfl
@[simp] theorem State.setAcc_maxOps (s : State) (v : Nat) : (s.setAcc v).maxOps = s.maxOps := rfl
@[simp] theorem State.setAcc_hostIn (s : State) (v : Nat) : (s.setAcc v).hostIn = s.hostIn := rfl

@[simp] theorem State.setIp_mem (s : State) (v : Nat) : (s.setIp v).mem = s.mem := rfl
@[simp] theorem State.setIp_acc (s : State) (v : Nat) : (s.setIp v).acc = s.acc := rfl
@[simp] theorem State.setIp_ip (s : State) (v : Nat) : (s.setIp v).ip = v := rfl
@[simp] theorem State.setIp_opCount (s : State) (v : Nat) : (s.setIp v).opCount = s.opCount := rfl
@[simp] theorem State.setIp_runState (s : State) (v : Nat) : (s.setIp v).runState = s.runState := rfl
@[simp] theorem State.setIp_failCode (s : State) (v : Nat) : (s.setIp v).failCode = s.failCode := rfl
@[simp] theorem State.setIp_maxOps (s : State) (v : Nat) : (s.setIp v).maxOps = s.maxOps := rfl
@[simp] theorem State.setIp_hostIn (s : State) (v : Nat) : (s.setIp v).hostIn = s.hostIn := rfl

@[simp] theorem State.setMem_mem (s : State) (m : Memory) : (s.setMem m).mem = m := rfl
@[simp] theorem State.setMem_acc (s : State) (m : Memory) : (s.setMem m).acc = s.acc := rfl
@[simp] theorem State.setMem_ip (s : State) (m : Memory) : (s.setMem m).ip = s.ip := rfl
@[simp] theorem State.setMem_opCount (s : State) (m : Memory) : (s.setMem m).opCount = s.opCount := rfl
@[simp] theorem State.setMem_runState (s : State) (m : Memory) : (s.setMem m).runState = s.runState := rfl
@[simp] theorem State.setMem_failCode (s : State) (m : Memory) : (s.setMem m).failCode = s.failCode := rfl
@[simp] theorem State.setMem_maxOps (s : State) (m : Memory) : (s.setMem m).maxOps = s.maxOps := rfl
@[simp] theorem State.setMem_hostIn (s : State) (m : Memory) : (s.setMem m).hostIn = s.hostIn := rfl

@[simp] theorem State.halt_mem (s : State) : (s.halt).mem = s.mem := rfl
@[simp] theorem State.halt_acc (s : State) : (s.halt).acc = s.acc := rfl
@[simp] theorem State.halt_ip (s : State) : (s.halt).ip = s.ip := rfl
@[simp] theorem State.halt_opCount (s : State) : (s.halt).opCount = s.opCount := rfl
@[simp] theorem State.halt_runState (s : State) : (s.halt).runState = .halted := rfl
@[simp] theorem State.halt_failCode (s : State) : (s.halt).failCode = s.failCode := rfl
@[simp] theorem State.halt_maxOps (s : State) : (s.halt).maxOps = s.maxOps := rfl
@[simp] theorem State.halt_hostIn (s : State) : (s.halt).hostIn = s.hostIn := rfl

@[simp] theorem State.count_mem (s : State) : (s.count).mem = s.mem := rfl
@[simp] theorem State.count_acc (s : State) : (s.count).acc = s.acc := rfl
@[simp] theorem State.count_ip (s : State) : (s.count).ip = s.ip := rfl
@[simp] theorem State.count_opCount (s : State) : (s.count).opCount = s.opCount + 1 := rfl
@[simp] theorem State.count_runState (s : State) : (s.count).runState = s.runState := rfl
@[simp] theorem State.count_failCode (s : State) : (s.count).failCode = s.failCode := rfl
@[simp] theorem State.count_maxOps (s : State) : (s.count).maxOps = s.maxOps := rfl
@[simp] theorem State.count_hostIn (s : State) : (s.count).hostIn = s.hostIn := rfl

@[simp] theorem State.takeInput_mem (s : State) : (s.takeInput).mem = s.mem := rfl
@[simp] theorem State.takeInput_acc (s : State) : (s.takeInput).acc = s.acc := rfl
@[simp] theorem State.takeInput_ip (s : State) : (s.takeInput).ip = s.ip := rfl
@[simp] theorem State.takeInput_opCount (s : State) : (s.takeInput).opCount = s.opCount := rfl
@[simp] theorem State.takeInput_runState (s : State) : (s.takeInput).runState = s.runState := rfl
@[simp] theorem State.takeInput_failCode (s : State) : (s.takeInput).failCode = s.failCode := rfl
@[simp] theorem State.takeInput_maxOps (s : State) : (s.takeInput).maxOps = s.maxOps := rfl
@[simp] theorem State.takeInput_hostIn (s : State) : (s.takeInput).hostIn = s.hostIn.tail := rfl

@[simp] theorem State.advance_mem (s : State) (k : Kind) (a : Nat) (z : Bool) : (s.advance k a z).mem = s.mem := rfl
@[simp] theorem State.advance_acc (s : State) (k : Kind) (a : Nat) (z : Bool) : (s.advance k a z).acc = s.acc := rfl
@[simp] theorem State.advance_ip (s : State) (k : Kind) (a : Nat) (z : Bool) : (s.advance k a z).ip = nextIp k s.ip a z := rfl
@[simp] theorem State.advance_opCount (s : State) (k : Kind) (a : Nat) (z : Bool) : (s.advance k a z).opCount = s.opCount := rfl
@[simp] theorem State.advance_runState (s : State) (k : Kind) (a : Nat) (z : Bool) : (s.advance k a z).runState = s.runState := rfl
@[simp] theorem State.advance_failCode (s : State) (k : Kind) (a : Nat) (z : Bool) : (s.advance k a z).failCode = s.failCode := rfl
@[simp] theorem State.advance_maxOps (s : State) (k : Kind) (a : Nat) (z : Bool) : (s.advance k a z).maxOps = s.maxOps := rfl
@[simp] theorem State.advance_hostIn (s : State) (k : Kind) (a : Nat) (z : Bool) : (s.advance k a z).hostIn = s.hostIn := rfl

@[simp] theorem State.raise_none_mem (s : State) (f : Failure) : (s.raise f none).mem = s.mem := rfl
@[simp] theorem State.raise_none_acc (s : State) (f : Failure) : (s.raise f none).acc = s.acc := rfl
@[simp] theorem State.raise_none_ip (s : State) (f : Failure) : (s.raise f none).ip = s.ip := rfl
@[simp] theorem State.raise_none_opCount (s : State) (f : Failure) : (s.raise f none).opCount = s.opCount := rfl
@[simp] theorem State.raise_none_runState (s : State) (f : Failure) : (s.raise f none).runState = .failed f := rfl
@[simp] theorem State.raise_none_failCode (s : State) (f : Failure) : (s.raise f none).failCode = s.failCode := rfl
@[simp] theorem State.raise_none_maxOps (s : State) (f : Failure) : (s.raise f none).maxOps = s.maxOps := rfl
@[simp] theorem State.raise_none_hostIn (s : State) (f : Failure) : (s.raise f none).hostIn = s.hostIn := rfl

@[simp] theorem State.raise_some_mem (s : State) (f : Failure) (c : Nat) : (s.raise f (some c)).mem = s.mem := rfl
@[simp] theorem State.raise_some_acc (s : State) (f : Failure) (c : Nat) : (s.raise f (some c)).acc = s.acc := rfl
@[simp] theorem State.raise_some_ip (s : State) (f : Failure) (c : Nat) : (s.raise f (some c)).ip = s.ip := rfl
@[simp] theorem State.raise_some_opCount (s : State) (f : Failure) (c : Nat) : (s.raise f (some c)).opCount = s.opCount := rfl
@[simp] theorem State.raise_some_runState (s : State) (f : Failure) (c : Nat) : (s.raise f (some c)).runState = .failed f := rfl
@[simp] theorem State.raise_some_failCode (s : State) (f : Failure) (c : Nat) : (s.raise f (some c)).failCode = c := rfl
@[simp] theorem State.raise_some_maxOps (s : State) (f : Failure) (c : Nat) : (s.raise f (some c)).maxOps = s.maxOps := rfl
@[simp] theorem State.raise_some_hostIn (s : State) (f : Failure) (c : Nat) : (s.raise f (some c)).hostIn = s.hostIn := rfl

@[simp] theorem State.start_mem (s : State) (n : Option Nat) : (s.start n).mem = s.mem := rfl
@[simp] theorem State.start_acc (s : State) (n : Option Nat) : (s.start n).acc = 0 := rfl
@[simp] theorem State.start_ip (s : State) (n : Option Nat) : (s.start n).ip = 0 := rfl
@[simp] theorem State.start_opCount (s : State) (n : Option Nat) : (s.start n).opCount = 0 := rfl
@[simp] theorem State.start_runState (s : State) (n : Option Nat) : (s.start n).runState = .running := rfl
@[simp] theorem State.start_failCode (s : State) (n : Option Nat) : (s.start n).failCode = 0 := rfl
@[simp] theorem State.start_maxOps (s : State) (n : Option Nat) : (s.start n).maxOps = n := rfl
@[simp] theorem State.start_hostIn (s : State) (n : Option Nat) : (s.start n).hostIn = s.hostIn := rfl

@[simp] theorem State.powerOn_mem (s : State) : (s.powerOn).mem = ⟨[]⟩ := rfl
@[simp] theorem State.powerOn_acc (s : State) : (s.powerOn).acc = 0 := rfl
@[simp] theorem State.powerOn_ip (s : State) : (s.powerOn).ip = 0 := rfl
@[simp] theorem State.powerOn_opCount (s : State) : (s.powerOn).opCount = 0 := rfl
@[simp] theorem State.powerOn_runState (s : State) : (s.powerOn).runState = .idle := rfl
@[simp] theorem State.powerOn_failCode (s : State) : (s.powerOn).failCode = 0 := rfl
@[simp] theorem State.powerOn_maxOps (s : State) : (s.powerOn).maxOps = none := rfl
@[simp] theorem State.powerOn_hostIn (s : State) : (s.powerOn).hostIn = s.hostIn := rfl

end Sys2Proof.Machine
end

