-- ==== Sys2Proof/Laws/Operations.lean ====
section
/-! SUPPORT. For each shared operation, once, everything it can do: the ALU, the decoder, the operand
accesses, the end of an effect, steps 1 to 4 of a cycle, the turn of host and engine. -/

namespace Sys2Proof.Machine

/-! ## ALU -/

theorem satAdd_eq (a b : Nat) : satAdd a b = min 99999 (a + b) := rfl

/-- Subtraction on natural numbers already floors at 0. -/
theorem satSub_eq (a b : Nat) : satSub a b = a - b := by
  unfold satSub
  omega

theorem satAdd_le (a b : Nat) : satAdd a b ≤ Config.maxValue := Nat.min_le_left _ _

theorem satSub_le {a : Nat} (b : Nat) (h : a ≤ Config.maxValue) : satSub a b ≤ Config.maxValue := by
  rw [satSub_eq]
  omega

/-! ## Operand accesses -/

theorem dataValue_le (a cell : Nat) : dataValue a cell ≤ Config.maxValue := by
  unfold dataValue
  split
  · assumption
  · have := (Config.unstatedRead a cell).isLt
    omega

@[simp] theorem dataValue_of_le {a cell : Nat} (h : cell ≤ Config.maxValue) :
    dataValue a cell = cell := by
  unfold dataValue
  rw [if_pos h]

/-- What an operand read gives (R41, R103). -/
theorem loadOperand_eq (s : State) (a : Nat) :
    loadOperand s a =
      if a < Config.ramSize then .ok (dataValue a (s.mem.cellAt a)) else .error .outOfBounds := by
  unfold loadOperand memRead effectiveAddress
  grind

/-- What an operand write gives (R42, R103). -/
theorem storeOperand_eq (s : State) (a v : Nat) :
    storeOperand s a v =
      if Config.ramSize ≤ a then .error .outOfBounds
      else if Config.maxValue < v then .error .valueOutOfRange
      else .ok (s.setMem (s.mem.put a v)) := by
  unfold storeOperand memWrite effectiveAddress
  grind

theorem loadOperand_of_lt {s : State} {a : Nat} (ha : a < Config.ramSize) :
    loadOperand s a = .ok (dataValue a (s.mem.cellAt a)) := by
  rw [loadOperand_eq, if_pos ha]

theorem storeOperand_of_le {s : State} {a v : Nat} (ha : a < Config.ramSize)
    (hv : v ≤ Config.maxValue) : storeOperand s a v = .ok (s.setMem (s.mem.put a v)) := by
  rw [storeOperand_eq, if_neg (by omega), if_neg (by omega)]

/-! ## Decoder -/

/-- Everything the opcode map can give (R63). -/
theorem kindOf_cases (n : Nat) :
    (n = 0 ∧ kindOf n = .noop) ∨ (n = 1 ∧ kindOf n = .take) ∨ (n = 2 ∧ kindOf n = .add) ∨
    (n = 3 ∧ kindOf n = .sub) ∨ (n = 4 ∧ kindOf n = .save) ∨ (n = 5 ∧ kindOf n = .jmp) ∨
    (n = 6 ∧ kindOf n = .tst) ∨ (n = 7 ∧ kindOf n = .inc) ∨ (n = 8 ∧ kindOf n = .dec) ∨
    (n = 9 ∧ kindOf n = .null) ∨ (n = 10 ∧ kindOf n = .hlt) ∨
    (10 < n ∧ kindOf n = .unknown n) := by
  unfold kindOf
  split <;> simp_all
  omega

/-- An unknown opcode is one above the last defined one. -/
theorem kindOf_unknown {n : Nat} (h : 10 < n) : kindOf n = .unknown n := by
  rcases kindOf_cases n with h' | h' | h' | h' | h' | h' | h' | h' | h' | h' | h' | h' <;>
    first | exact h'.2 | omega

theorem decode_of_le {code : Nat} (h : code ≤ Config.maxValue) :
    decode code = .instr ((kindOf (opcodeOf code)).instr (operandOf code)) := if_pos h

theorem decode_of_gt {code : Nat} (h : Config.maxValue < code) :
    decode code = .valueOutOfRange code := if_neg (by omega)

theorem Kind.instr_operand (k : Kind) (a : Nat) : (k.instr a).operand = a := by
  cases k <;> rfl

/-- What the decoder yields has an operand that is the address of a cell (R65). -/
theorem decode_operand_lt {code : Nat} {i : Instr} (h : decode code = .instr i) :
    i.operand < Config.ramSize := by
  unfold decode at h
  split at h
  · cases h
    rw [Kind.instr_operand]
    exact Nat.mod_lt _ (by decide)
  · cases h

/-- The code of an instruction from its two fields (R63); unfolding `encode` at an instruction instead
makes the kernel count up the literals. -/
theorem encode_of_fields (i : Instr) {n a : Nat} (hn : i.opcode = n) (ha : i.operand = a) :
    encode i = n * 1000 + a := by
  rw [← hn, ← ha]
  rfl

/-! ## The end of an effect -/

@[simp] theorem finishEffect_ok (s t : State) (code : Nat) :
    finishEffect s code (.ok t) = .next t := rfl

@[simp] theorem finishEffect_error (s : State) (code : Nat) (f : Failure) :
    finishEffect s code (.error f) = .next (s.raise f (some code)) := rfl

/-! ## Steps 1 to 4 of a cycle -/

/-- The comparison of step 3, on the counted state (R84). -/
theorem limitReached_count_iff (s : State) :
    s.count.limitReached = true ↔ ∃ n, s.maxOps = some n ∧ n ≤ s.opCount + 1 := by
  unfold State.limitReached State.count
  cases h : s.maxOps with
  | none => simp
  | some n => exact ⟨fun h => ⟨n, rfl, of_decide_eq_true h⟩,
      fun ⟨_, hm, hle⟩ => decide_eq_true (Option.some.inj hm ▸ hle)⟩

/-- Everything steps 1 to 4 can do (R81 to R85). -/
theorem fetch_cases (s : State) :
    (Config.ramSize ≤ s.ip ∧ fetch s = .failed (s.raise .outOfBounds none)) ∨
    (s.ip < Config.ramSize ∧ s.count.limitReached = true ∧
      fetch s = .failed (s.count.raise .operationLimitExceeded (some (s.mem.cellAt s.ip)))) ∨
    (s.ip < Config.ramSize ∧ s.count.limitReached = false ∧ Config.maxValue < s.mem.cellAt s.ip ∧
      fetch s = .failed (s.count.raise .valueOutOfRange (some (s.mem.cellAt s.ip)))) ∨
    (s.ip < Config.ramSize ∧ s.count.limitReached = false ∧ s.mem.cellAt s.ip ≤ Config.maxValue ∧
      ∃ i, decode (s.mem.cellAt s.ip) = .instr i ∧ fetch s = .ready i s.count) := by
  by_cases hip : Config.ramSize ≤ s.ip
  · exact .inl ⟨hip, if_pos hip⟩
  · have hr : memRead s.mem s.ip = .ok (s.mem.cellAt s.ip) := if_neg hip
    have hf : fetch s = decodeFetched (s.mem.cellAt s.ip) s.count := by
      unfold fetch
      rw [if_neg hip, hr]
    rw [hf]
    unfold decodeFetched
    rcases hl : s.count.limitReached
    · rcases Nat.lt_or_ge Config.maxValue (s.mem.cellAt s.ip) with hc | hc
      · exact .inr (.inr (.inl ⟨by omega, rfl, hc, by simp [decode_of_gt hc]⟩))
      · exact .inr (.inr (.inr ⟨by omega, rfl, hc, _, decode_of_le hc, by simp [decode_of_le hc]⟩))
    · exact .inr (.inl ⟨by omega, rfl, by simp⟩)

/-! ## The turn of host and engine -/

@[simp] theorem presented_takeInput_runState (s : State) :
    s.takeInput.isRunning = s.isRunning := rfl

theorem isRunning_iff {s : State} : s.isRunning = true ↔ s.runState = .running := by
  simp [State.isRunning]

/-- Everything the turn can be (R80, R91, R139). -/
theorem turn_cases (s : State) :
    (s.EngineTurn ∧ turn s = .engine s.takeInput) ∨
    (s.runState ≠ .running ∧ s.presented = none ∧ turn s = .host s.takeInput) ∨
    (∃ r, s.presented = some r ∧ (s.runState ≠ .running ∨ r = .powerOnReset) ∧
      turn s = .host (serve r s.takeInput)) := by
  unfold turn
  rcases hp : s.presented with _ | r
  · by_cases hr : s.runState = .running
    · exact .inl ⟨⟨hr, by simp [hp]⟩, by simp [State.isRunning, hr]⟩
    · exact .inr (.inl ⟨hr, rfl, by simp [State.isRunning, hr]⟩)
  · by_cases hr : s.runState = .running
    · by_cases hq : r = .powerOnReset
      · exact .inr (.inr ⟨r, rfl, .inr hq, by simp [HostRequest.refusedIn, hq]⟩)
      · exact .inl ⟨⟨hr, by simp [hp, hq]⟩,
          by simp [HostRequest.refusedIn, State.isRunning, hr, hq]⟩
    · exact .inr (.inr ⟨r, rfl, .inl hr, by simp [HostRequest.refusedIn, State.isRunning, hr]⟩)

theorem turn_of_engineTurn {s : State} (h : s.EngineTurn) : turn s = .engine s.takeInput := by
  rcases turn_cases s with ⟨_, h'⟩ | ⟨hr, _⟩ | ⟨r, hp, hr, _⟩
  · exact h'
  · exact absurd h.1 hr
  · rcases hr with hr | rfl
    · exact absurd h.1 hr
    · exact absurd hp h.2

/-- Everything a step can do: a cycle from the state with this step's input taken, nothing at all, or
a request served. -/
theorem step_cases (s : State) :
    (s.EngineTurn ∧ step s = cycle s.takeInput) ∨
    (s.runState ≠ .running ∧ s.presented = none ∧ step s = .next s.takeInput) ∨
    (∃ r, s.presented = some r ∧ (s.runState ≠ .running ∨ r = .powerOnReset) ∧
      step s = .next (serve r s.takeInput)) := by
  unfold step
  rcases turn_cases s with ⟨h, ht⟩ | ⟨h, hp, ht⟩ | ⟨r, hp, hr, ht⟩
  · exact .inl ⟨h, by rw [ht]⟩
  · exact .inr (.inl ⟨h, hp, by rw [ht]⟩)
  · exact .inr (.inr ⟨r, hp, hr, by rw [ht]⟩)

theorem step_of_engineTurn {s : State} (h : s.EngineTurn) : step s = cycle s.takeInput := by
  unfold step
  rw [turn_of_engineTurn h]

/-! ## What can be observed -/

theorem heldPorts_of_running {s : State} (h : s.runState = .running) : s.heldPorts = none := by
  simp [State.heldPorts, State.isRunning, h]

theorem heldPorts_of_not_running {s : State} (h : s.runState ≠ .running) :
    s.heldPorts = some ⟨BitVec.ofNat 17 s.failCode, s.opCount, BitVec.ofNat 17 s.acc,
      BitVec.ofNat 10 s.ip⟩ := by
  simp [State.heldPorts, State.isRunning, h]

@[simp] theorem ports_runState (s : State) : s.ports.runState = BitVec.ofNat 2 s.runState.code := rfl
@[simp] theorem ports_failReason (s : State) :
    s.ports.failReason = BitVec.ofNat 3 s.runState.failReason := rfl
@[simp] theorem ports_held (s : State) : s.ports.held = s.heldPorts := rfl
@[simp] theorem observation_ports (s : State) : s.observation.ports = s.ports := rfl
@[simp] theorem observation_reply (s : State) : s.observation.reply = s.hostReply := rfl
@[simp] theorem observation_trace (s : State) : s.observation.trace = s.emitted := rfl

/-! ## Runs -/

/-- `runSteps` is the host's run of this machine. -/
theorem runSteps_eq_run (k : Nat) (s : State) : runSteps k s = Host.Core.run Sys2Proof.core k s := by
  induction k generalizing s with
  | zero => rfl
  | succ k ih =>
    simp only [runSteps, Host.Core.run]
    cases h : step s with
    | next t => simpa [Sys2Proof.core, h] using ih t
    | fault r => simp [Sys2Proof.core, h]
    | refused r => simp [Sys2Proof.core, h]

theorem runSteps_zero (s : State) : runSteps 0 s = .next s := rfl

theorem runSteps_succ {k : Nat} {s t : State} (h : step s = .next t) :
    runSteps (k + 1) s = runSteps k t := by
  simp only [runSteps, h]

end Sys2Proof.Machine
end

