-- ==== Sys2Proof/Laws/PerInstr.lean ====
section
/-! SUPPORT. Facts about every instruction as syntax, one lemma per constructor. -/

namespace Sys2Proof.Laws.EncodeFields

/-- The code of a well-formed instruction is in range, and its two decimal fields are the
instruction's opcode and operand (30_encoding.md R60, R61). -/
def Statement (i : Instr) : Prop :=
  i.wf = true →
    encode i ≤ Config.maxValue ∧ opcodeOf (encode i) = i.opcode ∧ operandOf (encode i) = i.operand

/-- The decimal fields of a packed pair. -/
theorem fields_of_pair {n a : Nat} (hn : n ≤ 99) (ha : operandOk a = true) :
    n * 1000 + a ≤ Config.maxValue ∧ opcodeOf (n * 1000 + a) = n ∧ operandOf (n * 1000 + a) = a := by
  simp only [operandOk, decide_eq_true_eq] at ha
  unfold opcodeOf operandOf
  simp only [Config.ramSize, Config.maxValue] at *
  omega

theorem noop (a : Nat) : Statement (.noop a) := fun h => fields_of_pair (n := 0) (by decide) h
theorem take (a : Nat) : Statement (.take a) := fun h => fields_of_pair (n := 1) (by decide) h
theorem add (a : Nat) : Statement (.add a) := fun h => fields_of_pair (n := 2) (by decide) h
theorem sub (a : Nat) : Statement (.sub a) := fun h => fields_of_pair (n := 3) (by decide) h
theorem save (a : Nat) : Statement (.save a) := fun h => fields_of_pair (n := 4) (by decide) h
theorem jmp (a : Nat) : Statement (.jmp a) := fun h => fields_of_pair (n := 5) (by decide) h
theorem tst (a : Nat) : Statement (.tst a) := fun h => fields_of_pair (n := 6) (by decide) h
theorem inc (a : Nat) : Statement (.inc a) := fun h => fields_of_pair (n := 7) (by decide) h
theorem dec (a : Nat) : Statement (.dec a) := fun h => fields_of_pair (n := 8) (by decide) h
theorem null (a : Nat) : Statement (.null a) := fun h => fields_of_pair (n := 9) (by decide) h
theorem hlt (a : Nat) : Statement (.hlt a) := fun h => fields_of_pair (n := 10) (by decide) h
theorem unknown (n a : Nat) : Statement (.unknown n a) := by
  intro h
  simp only [Instr.wf, unknownOpcodeOk, Bool.and_eq_true, decide_eq_true_eq] at h
  exact fields_of_pair h.1.2 h.2

end Sys2Proof.Laws.EncodeFields
end

