-- ==== Sys2Proof/Tests/Slice0.lean ====
section
/-! SUPPORT. The model's own tests, with expected values from 95_test_vectors.md or worked by hand from
the rules, and for each statement with hypotheses a state and operands that meet them together. -/

namespace Sys2Proof.Tests

open Sys2Proof.Machine Sys2Proof.Config

/-- A Running state with these cells, accumulator and instruction pointer, no limit, no host input. -/
def demo (cells : List (Nat × Nat)) (acc ip : Nat) : State :=
  { State.reset with mem := ⟨cells⟩, acc := acc, ip := ip, runState := .running }

/-- A state that is not Running, to which the host presents one request. -/
def asked (cells : List (Nat × Nat)) (r : HostRequest) : State :=
  { State.reset with mem := ⟨cells⟩, hostIn := [some r] }

/-- The next state of an outcome. -/
def result (o : Host.Outcome State Fault Refusal) : Option State :=
  match o with
  | .next t => some t
  | .fault _ => none
  | .refused _ => none

/-! ## Well-formedness: each check refuses an ill-formed term -/

theorem test_wf_refuses_operand :
    ∀ i ∈ [Instr.noop 1000, .take 1000, .add 1000, .sub 1000, .save 1000, .jmp 1000, .tst 1000,
      .inc 1000, .dec 1000, .null 1000, .hlt 1000, .unknown 11 1000], i.wf = false := by decide
theorem test_wf_refuses_defined_opcode : (Instr.unknown 10 0).wf = false := by decide
theorem test_wf_refuses_opcode_100 : (Instr.unknown 100 0).wf = false := by decide
theorem test_wf_accepts : (Instr.unknown 11 999).wf = true ∧ (Instr.unknown 99 0).wf = true ∧
    (Instr.hlt 999).wf = true := by decide

/-! ## Decoding of codes written out from the digit patterns of 30_encoding.md R63 -/

theorem test_decode_noop : decode 00041 = .instr (.noop 41) := by decide
theorem test_decode_noop_last : decode 00999 = .instr (.noop 999) := by decide
theorem test_decode_take : decode 01010 = .instr (.take 10) := by decide
theorem test_decode_take_last : decode 01999 = .instr (.take 999) := by decide
theorem test_decode_add : decode 02021 = .instr (.add 21) := by decide
theorem test_decode_sub : decode 03999 = .instr (.sub 999) := by decide
theorem test_decode_save : decode 04010 = .instr (.save 10) := by decide
theorem test_decode_jmp : decode 05000 = .instr (.jmp 0) := by decide
theorem test_decode_tst : decode 06005 = .instr (.tst 5) := by decide
theorem test_decode_inc : decode 07010 = .instr (.inc 10) := by decide
theorem test_decode_dec : decode 08020 = .instr (.dec 20) := by decide
theorem test_decode_null : decode 09050 = .instr (.null 50) := by decide
theorem test_decode_hlt : decode 10000 = .instr (.hlt 0) := by decide
theorem test_decode_hlt_last : decode 10999 = .instr (.hlt 999) := by decide
theorem test_decode_unknown : decode 11000 = .instr (.unknown 11 0) := by decide
theorem test_decode_unknown_last : decode 99999 = .instr (.unknown 99 999) := by decide
theorem test_decode_out_of_range : decode 100000 = .valueOutOfRange 100000 := by decide
theorem test_table_word : decodeTableWord 24 12345 = some (.unknown 12 345) := by decide
theorem test_encode : encode (.dec 20) = 8020 ∧ encode (.unknown 12 345) = 12345 := by decide
theorem test_unknown_marker : (kindOf 11).mnemonic = "?11" := by decide

/-! ## Memory and ALU (95_test_vectors.md 2.2 and 2.4) -/

theorem test_write_keeps_form :
    (((⟨[]⟩ : Memory).put 5 7).put 3 9).put 5 0 = ⟨[(3, 9)]⟩ := by decide
theorem test_write_sorts : ((⟨[(3, 9), (8, 1)]⟩ : Memory).put 5 7) = ⟨[(3, 9), (5, 7), (8, 1)]⟩ := by
  decide
theorem test_read_bad_address : memRead ⟨[]⟩ 1000 = .error .outOfBounds := by decide
theorem test_write_bad_value : memWrite ⟨[(3, 5)]⟩ 3 100000 = .error .valueOutOfRange := by decide
theorem test_write_address_first : memWrite ⟨[]⟩ 1000 100000 = .error .outOfBounds := by decide
theorem test_sat_add : satAdd 99998 1 = 99999 ∧ satAdd 99990 10 = 99999 ∧ satAdd 3 9 = 12 := by decide
theorem test_sat_sub : satSub 3 9 = 0 ∧ satSub 99999 60000 = 39999 ∧ satSub 3 3 = 0 := by decide

/-! ## The instructions, one effect each -/

/-- V-L1 -/
theorem test_take : result (exec (.take 10) (demo [(10, 41)] 7 0)) = some (demo [(10, 41)] 41 1) := by
  decide
/-- V-L2 -/
theorem test_take_unwritten : result (exec (.take 999) (demo [] 7 4)) = some (demo [] 0 5) := by decide
/-- V-L4 -/
theorem test_save : result (exec (.save 10) (demo [(10, 41)] 42 2)) = some (demo [(10, 42)] 42 3) := by
  decide
/-- V-L5: storing 0 leaves no entry. -/
theorem test_save_zero : result (exec (.save 10) (demo [(10, 41)] 0 2)) = some (demo [] 0 3) := by
  decide
/-- V-L9 -/
theorem test_null : result (exec (.null 50) (demo [(50, 7)] 55 0)) = some (demo [] 0 1) := by decide
/-- V-A1 -/
theorem test_add : result (exec (.add 21) (demo [(21, 4)] 4 4)) = some (demo [(21, 4)] 8 5) := by decide
/-- V-A2 -/
theorem test_add_saturates :
    result (exec (.add 11) (demo [(11, 1)] 99999 1)) = some (demo [(11, 1)] 99999 2) := by decide
/-- V-A6 -/
theorem test_sub : result (exec (.sub 10) (demo [(10, 9000)] 9051 2)) = some (demo [(10, 9000)] 51 3) := by
  decide
/-- V-A9 -/
theorem test_sub_floors :
    result (exec (.sub 11) (demo [(11, 60000)] 39999 4)) = some (demo [(11, 60000)] 0 5) := by decide
/-- V-A12: the old accumulator is ignored. -/
theorem test_inc : result (exec (.inc 10) (demo [] 500 1)) = some (demo [(10, 1)] 1 2) := by decide
/-- V-A13 -/
theorem test_inc_saturates :
    result (exec (.inc 10) (demo [(10, 99999)] 0 2)) = some (demo [(10, 99999)] 99999 3) := by decide
/-- V-A18 -/
theorem test_dec : result (exec (.dec 20) (demo [(20, 3)] 12 6)) = some (demo [(20, 2)] 2 7) := by decide
/-- V-A20 -/
theorem test_dec_floors : result (exec (.dec 12) (demo [] 12 5)) = some (demo [] 0 6) := by decide
/-- V-C2: the operand digits are ignored. -/
theorem test_noop : result (exec (.noop 41) (demo [] 5 7)) = some (demo [] 5 8) := by decide
/-- V-C3: `ip` does not wrap. -/
theorem test_noop_at_end : result (exec (.noop 0) (demo [] 5 999)) = some (demo [] 5 1000) := by decide
/-- V-C5 -/
theorem test_jmp : result (exec (.jmp 999) (demo [] 3 7)) = some (demo [] 3 999) := by decide
/-- V-C13: the skip at the last address. -/
theorem test_tst_skips : result (exec (.tst 500) (demo [] 4 999)) = some (demo [] 0 1001) := by decide
/-- V-C8 -/
theorem test_tst_falls_through :
    result (exec (.tst 5) (demo [(5, 9)] 4 1)) = some (demo [(5, 9)] 9 2) := by decide
/-- V-C16 -/
theorem test_hlt : (result (exec (.hlt 5) (demo [] 42 3))).map (fun t => (t.runState, t.ip, t.acc)) =
    some (.halted, 3, 42) := by decide
/-- V-F2 -/
theorem test_unknown : (result (exec (.unknown 99 999) (demo [] 4 0))).map
    (fun t => (t.runState, t.failCode, t.ip, t.acc)) =
    some (.failed .illegalInstruction, 99999, 0, 4) := by decide

/-! ## The cycle and the host, one step each -/

/-- V-C15, with the count. -/
theorem test_step_hlt : (result (step { demo [(3, 10000)] 42 3 with opCount := 3 })).map
    (fun t => (t.runState, t.ip, t.opCount)) = some (.halted, 3, 4) := by decide
/-- V-C3's next cycle: not counted, nothing recorded in `fail_code`. -/
theorem test_step_off_end : (result (step { demo [] 5 1000 with opCount := 9 })).map
    (fun t => (t.runState, t.ip, t.opCount, t.failCode, t.failContext)) =
    some (.failed .outOfBounds, 1000, 9, 0, some 1000) := by decide
/-- V-F3: the limit is checked before the opcode. -/
theorem test_step_limit_first : (result (step { demo [(0, 11000)] 0 0 with maxOps := some 1 })).map
    (fun t => (t.runState, t.failCode, t.opCount, t.failContext)) =
    some (.failed .operationLimitExceeded, 11000, 1, some 1) := by decide
/-- V-F4 -/
theorem test_step_illegal : (result (step { demo [(0, 11000)] 0 0 with maxOps := some 2 })).map
    (fun t => (t.runState, t.opCount, t.failContext)) =
    some (.failed .illegalInstruction, 1, some 11000) := by decide
/-- R62, on a cell that no reachable state holds. -/
theorem test_step_code_out_of_range : (result (step (demo [(0, 100000)] 0 0))).map
    (fun t => (t.runState, t.opCount, t.failContext)) =
    some (.failed .valueOutOfRange, 1, some 100000) := by decide
/-- V-C17 -/
theorem test_step_halted : result (step { demo [] 42 3 with runState := .halted }) =
    some { demo [] 42 3 with runState := .halted } := by decide
/-- V-F15's start: the registers and the failure record are cleared, memory is kept. -/
theorem test_start_after_failure :
    (result (step { asked [(0, 10000)] (.start (some 5)) with
      runState := .failed .illegalInstruction, failCode := 12345, ip := 3, acc := 7, opCount := 4 })) =
    some { demo [(0, 10000)] 0 0 with maxOps := some 5 } := by decide
/-- Part 2.6, the host-side refusals. -/
theorem test_host_replies : (asked [] (.setCell 1000 0)).hostReply = some (.failed .outOfBounds) ∧
    (asked [] (.setCell 0 100000)).hostReply = some (.failed .valueOutOfRange) ∧
    (asked [] (.setCell 999 99999)).hostReply = some .done ∧
    { demo [] 0 0 with hostIn := [some (.setCell 0 1)] }.hostReply = some .busy := by decide
/-- R137: reset acts on a Running machine; R180. -/
theorem test_reset_while_running :
    result (step { demo [(0, 5000)] 7 0 with hostIn := [some .powerOnReset] }) = some State.reset := by
  decide
/-- R138, for V-A11. -/
theorem test_trace : (demo [(1, 7010), (10, 41)] 41 1).emitted =
    some ⟨1, 7, 10, 42, true, 42, 2⟩ := by decide
theorem test_fetch_word : (result (step (State.reset.withFetchWord 24 7010))).map
    (fun t => (t.acc, t.ip, t.opCount, t.mem.cellAt 10)) = some (1, 1, 1, 1) := by decide

/-! ## Witnesses: the hypotheses of each statement, met together, at the boundaries -/

theorem witness_DecodeOfEncodeIsIdentity :
    (Instr.noop 0).wf = true ∧ (Instr.hlt 999).wf = true ∧ (Instr.unknown 99 999).wf = true := by decide
theorem witness_EncodeOfDecodeIsIdentity : 99999 ≤ maxValue ∧ (Instr.unknown 99 999).wf = true ∧
    encode (.unknown 99 999) = 99999 := by decide
theorem witness_DecodeFollowsOpcodeMap : 999 < ramSize ∧ 11 ≤ 11 ∧ 11 ≤ 99 ∧ 11 ≤ 99 ∧ 99 ≤ 99 := by decide
theorem witness_DecoderBlockOutputs : 99999 ≤ maxValue ∧ ¬ 100000 ≤ maxValue ∧
    (decoderBlock 11000).kind = .unknown (decoderBlock 11000).opcode ∧
    (decoderBlock 10999).kind = .hlt := by decide
theorem witness_DecodeFailsOnlyOutOfRange :
    decode 100000 = .valueOutOfRange 100000 ∧ maxValue < 100000 := by decide
theorem witness_ReadAfterWrite : 999 < ramSize ∧ 99999 ≤ maxValue ∧ 998 ≠ 999 := by decide
theorem witness_MemoryFailureLaws : ramSize ≤ 1000 ∧ 999 < ramSize ∧ maxValue < 100000 := by decide
theorem witness_CanonicalMemoryIsDetermined :
    (⟨[(0, 5), (999, 99999)]⟩ : Memory).wf = true ∧
    ((⟨[(999, 99999)]⟩ : Memory).put 0 5).wf = true ∧
    ∀ a, (⟨[(0, 5), (999, 99999)]⟩ : Memory).cellAt a = ((⟨[(999, 99999)]⟩ : Memory).put 0 5).cellAt a :=
  ⟨by decide, by decide, fun _ => rfl⟩
theorem witness_SaturationLaws : 99999 ≤ maxValue ∧ 0 ≤ maxValue ∧ 99999 + 0 ≤ maxValue ∧
    maxValue ≤ 99999 + 0 ∧ 0 ≤ 99999 := by decide

theorem witness_TakeLoadsAccumulator : 999 < ramSize ∧
    (demo [(999, 1999)] 7 999).mem.cellAt 999 ≤ maxValue ∧ (demo [(999, 1999)] 7 999).Executes 1999 ∧
    ramSize ≤ (demo [] 0 1000).ip ∧ (demo [] 0 1000).EngineTurn := by decide
theorem witness_SaveStoresAccumulator : 999 < ramSize ∧ (demo [(999, 4999)] 99999 999).acc ≤ maxValue ∧
    (demo [(999, 4999)] 99999 999).Executes 4999 := by decide
theorem witness_NullClearsAccumulatorAndCell : 999 < ramSize ∧
    (demo [(999, 9999)] 5 999).Executes 9999 := by decide
theorem witness_AddSaturates : 0 < ramSize ∧ (demo [(0, 99999), (1, 2000)] 1 1).mem.cellAt 0 ≤ maxValue ∧
    (demo [(0, 99999), (1, 2000)] 1 1).Executes 2000 := by decide
theorem witness_SubFloorsAtZero : 0 < ramSize ∧
    (demo [(0, 99999), (1, 3000)] 1 1).mem.cellAt 0 ≤ maxValue ∧
    (demo [(0, 99999), (1, 3000)] 1 1).Executes 3000 := by decide
theorem witness_IncUpdatesCellAndAccumulator : 0 < ramSize ∧
    (demo [(0, 99999), (1, 7000)] 1 1).mem.cellAt 0 ≤ maxValue ∧
    (demo [(0, 99999), (1, 7000)] 1 1).Executes 7000 := by decide
theorem witness_DecUpdatesCellAndAccumulator : 999 < ramSize ∧
    (demo [(1, 8999)] 1 1).mem.cellAt 999 ≤ maxValue ∧ (demo [(1, 8999)] 1 1).Executes 8999 := by decide
theorem witness_NoopOnlyAdvances : 999 < ramSize ∧ (demo [(999, 999)] 1 999).Executes 999 := by decide
theorem witness_JmpSetsInstructionPointer : 999 < ramSize ∧ (demo [(7, 5999)] 1 7).Executes 5999 := by
  decide
/-- Both clauses: a cell that is not 0 (the largest) and one that is 0. -/
theorem witness_TstLoadsAndSkipsOnZero : 5 < ramSize ∧
    (demo [(1, 6005), (5, 99999)] 4 1).mem.cellAt 5 ≤ maxValue ∧
    (demo [(1, 6005), (5, 99999)] 4 1).mem.cellAt 5 ≠ 0 ∧
    (demo [(1, 6005), (5, 99999)] 4 1).Executes 6005 ∧ (demo [(999, 6005)] 4 999).mem.cellAt 5 = 0 ∧
    (demo [(999, 6005)] 4 999).Executes 6005 := by decide
theorem witness_HltHalts : 999 < ramSize ∧ (demo [(3, 10999)] 42 3).Executes 10999 := by decide
theorem witness_UnknownOpcodeFailsWhenExecuted : 11 ≤ 11 ∧ 11 ≤ 99 ∧ 999 < ramSize ∧
    (demo [(0, 11999)] 0 0).Executes 11999 ∧ 11 ≤ 99 ∧ 99 ≤ 99 ∧
    (demo [(0, 99999)] 0 0).Executes 99999 ∧ (demo [(9, 99999)] 0 0).mem.cellAt 9 = 99 * 1000 + 999 ∧
    (demo [] 99999 0).acc = 99 * 1000 + 999 ∧
    (asked [(9, 99999)] (.readCell 9)).mem.cellAt 9 = 99 * 1000 + 999 ∧
    (asked [(9, 99999)] (.readCell 9)).runState ≠ .running ∧
    (asked [(9, 99999)] (.readCell 9)).presented = some (.readCell 9) := by decide
theorem witness_ReadOfOutOfRangeCellCompletes : 999 < ramSize ∧
    maxValue < (demo [(999, 100000)] 0 0).mem.cellAt 999 := by decide
theorem witness_AccessFailuresAreRaisedWhole : ramSize ≤ 1000 ∧ 999 < ramSize ∧
    maxValue < (demo [] 100000 0).acc := by decide

/-- One witness for each branch of the next `ip`: failed, JMP, TST on 0, HLT, and the rest; and one that
runs off the end of memory. -/
theorem witness_NextIpIsThatOfPcLogic :
    ((result (exec (.noop 0) (demo [] 0 999))).map State.ip = some 1000 ∧ (demo [] 0 1000).EngineTurn) ∧
    ((Instr.unknown 11 0).wf = true ∧ (result (exec (.unknown 11 0) (demo [] 0 4))).map State.isFailed = some true) ∧
    ((Instr.jmp 999).wf = true ∧ (result (exec (.jmp 999) (demo [] 0 4))).map State.isFailed = some false) ∧
    ((Instr.tst 9).wf = true ∧ (demo [] 0 4).mem.cellAt 9 = 0 ∧ (demo [] 0 4).runState = .running) ∧
    ((Instr.tst 9).wf = true ∧ (demo [(9, 1)] 0 4).mem.cellAt 9 ≤ maxValue) ∧
    ((Instr.hlt 0).wf = true ∧ (result (exec (.hlt 0) (demo [] 0 4))).isSome = true) ∧
    ((Instr.save 9).wf = true ∧ (result (exec (.save 9) (demo [] 0 4))).isSome = true) := by decide
theorem witness_OnlyOperandCellIsWritten : (Instr.inc 10).wf = true ∧
    exec (.inc 10) (demo [] 5 0) = .next (demo [(10, 1)] 1 1) := ⟨rfl, rfl⟩
theorem witness_OnlyOperandCellIsRead : (Instr.add 10).wf = true ∧
    exec (.add 10) (demo [(10, 3), (11, 8)] 5 0) = .next (demo [(10, 3), (11, 8)] 8 1) ∧
    (⟨[(10, 3)]⟩ : Memory).cellAt 10 = (demo [(10, 3), (11, 8)] 5 0).mem.cellAt 10 := ⟨rfl, rfl, rfl⟩
theorem witness_OldAccumulatorIsLost : (Instr.dec 999).wf = true ∧
    (Instr.dec 999).kind ∈ [Kind.take, .tst, .inc, .dec, .null] := by decide
theorem witness_ControlStateIsOutOfReach :
    exec (.take 10) (demo [(10, 41)] 7 0) = .next (demo [(10, 41)] 41 1) := rfl
/-- V-L7: SAVE into the next cell, which then holds HLT. -/
theorem witness_StoreIsSeenByLaterFetch : (Instr.save 2).wf = true ∧ (demo [] 10000 1).acc ≤ maxValue ∧
    (Instr.save 2).kind ∈ [Kind.save, .inc, .dec, .null] ∧
    exec (.save 2) (demo [] 10000 1) = .next (demo [(2, 10000)] 10000 2) ∧
    (demo [(1, 4002)] 10000 1).Executes (encode (.save 2)) ∧
    (demo [(2, 4002)] 10000 2).Executes (encode (.save 2)) ∧
    (demo [(2, 10000)] 10000 2).ip = (Instr.save 2).operand ∧
    (demo [(2, 10000)] 10000 2).EngineTurn ∧ (demo [(2, 10000)] 10000 2).count.limitReached = false ∧
    decode (demo [(2, 10000)] 10000 2).acc = .instr (.hlt 0) :=
  ⟨rfl, by decide, by decide, rfl, by decide, by decide, rfl, by decide, rfl, by decide⟩

theorem witness_StepRunsDecodedInstruction : (demo [(999, 2021)] 1 999).Executes 2021 ∧
    decode 2021 = .instr (.add 21) := by decide
theorem witness_CycleOutsideMemoryFails : (demo [] 0 1000).EngineTurn ∧ 1000 ≤ (demo [] 0 1000).ip ∧
    1000 ≤ (demo [] 0 1001).ip := by decide
/-- The limit reached exactly (2 after a count of 1), one below it, and none. -/
theorem witness_OperationLimitEndsExecution :
    (demo [] 0 0).EngineTurn ∧ (demo [] 0 999).ip < ramSize ∧ (2 : Nat) ≤ 1 + 1 ∧ ¬ (3 : Nat) ≤ 1 + 1 ∧
    (1 + 1 : Nat) < 3 ∧ (demo [] 0 0).maxOps = none := by decide
theorem witness_OperationLimit_underLimit :
    { demo [] 0 0 with opCount := 1, maxOps := some 2 }.UnderLimit := by
  intro n h
  cases h
  decide
/-- One state for each clause: off the end, at the limit, out of range, illegal, well. -/
theorem witness_FailurePriorityOfCycle :
    ((demo [] 0 1000).EngineTurn ∧ ramSize ≤ (demo [] 0 1000).ip) ∧
    ((demo [] 0 999).ip < ramSize ∧
      { demo [] 0 999 with maxOps := some 1 }.count.limitReached = true) ∧
    ((demo [(0, 100000)] 0 0).count.limitReached = false ∧
      maxValue < (demo [(0, 100000)] 0 0).mem.cellAt 0) ∧
    (11000 ≤ (demo [(0, 11000)] 0 0).mem.cellAt 0 ∧ (demo [(0, 99999)] 0 0).mem.cellAt 0 ≤ maxValue) ∧
    ((demo [(0, 10999)] 99999 0).mem.cellAt 0 < 11000 ∧ (demo [(0, 10999)] 99999 0).acc ≤ maxValue) := by
  decide
theorem witness_FailuresArePrecise : (demo [] 0 1000).runState = .running ∧
    step (demo [] 0 1000) = .next { demo [] 0 1000 with runState := .failed .outOfBounds } ∧
    step (demo [(0, 11000)] 0 0) = .next { demo [(0, 11000)] 0 0 with
      runState := .failed .illegalInstruction, failCode := 11000, opCount := 1 } := ⟨rfl, rfl, rfl⟩
theorem witness_FailureContextIsHeld : (demo [] 0 1001).runState = .running ∧
    (demo [] 0 1001).acc ≤ maxValue ∧
    step (demo [] 0 1001) = .next { demo [] 0 1001 with runState := .failed .outOfBounds } :=
  ⟨rfl, by decide, rfl⟩
theorem witness_OpCountCountsFetches : (demo [] 0 999).EngineTurn ∧ (demo [] 0 999).ip < ramSize ∧
    (result (step (demo [] 0 999))).isSome = true ∧ ramSize ≤ (demo [] 0 1000).ip ∧
    (result (step (demo [] 0 1000))).isSome = true := by decide
theorem witness_RunStateTransitions :
    (result (step (demo [(0, 10000)] 0 0))).map State.runState = some .halted ∧
    (result (step (demo [] 0 0))).map State.runState = some .running ∧
    (result (step (asked [] (.start none)))).map State.runState = some .running := by decide
theorem witness_StoppedMachineHoldsState : State.reset.runState ≠ .running ∧
    State.reset.presented = none := by decide
theorem witness_StepKeepsRanges : (demo [(0, 99999)] 99999 1001).InRange ∧
    (result (step (demo [(0, 99999)] 99999 1001))).isSome = true :=
  ⟨⟨rfl, rfl, by decide, by decide⟩, rfl⟩
theorem witness_StepKeepsFailureRecord : (demo [(0, 11000)] 0 0).InRange ∧
    (demo [(0, 11000)] 0 0).RecordSound ∧ (result (step (demo [(0, 11000)] 0 0))).isSome = true :=
  ⟨⟨rfl, rfl, by decide, by decide⟩, ⟨rfl, fun _ h => by cases h⟩, rfl⟩
theorem witness_LimitBoundsExecution : 1 ≤ 1 ∧ { demo [] 0 0 with maxOps := some 1 }.hostIn = [] ∧
    { demo [] 0 0 with maxOps := some 1 }.maxOps = some 1 := by decide
theorem witness_SelfJumpNeverEnds : (demo [(7, 5007)] 0 7).runState = .running ∧
    (demo [(7, 5007)] 0 7).hostIn = [] ∧ (demo [(7, 5007)] 0 7).maxOps = none ∧
    (demo [(7, 5007)] 0 7).ip < ramSize ∧ (demo [(7, 5007)] 0 7).mem.cellAt 7 = 5000 + 7 := by decide
theorem witness_LimitOnlyCutsExecutionShort : (demo [] 0 0).hostIn = [] ∧
    (result (runSteps 2 { demo [] 0 0 with maxOps := none })).map State.opCount = some 2 ∧ 2 < 3 := by
  decide

theorem witness_StartBeginsFreshExecution : (asked [] (.start (some 3))).runState ≠ .running ∧
    (asked [] (.start (some 3))).presented = some (.start (some 3)) := by decide
/-- One witness for each clause: busy, done, bad address, bad value. -/
theorem witness_SetCellWritesOrTellsFailure :
    ((demo [] 0 0).runState = .running ∧
      { demo [] 0 0 with hostIn := [some (.setCell 0 1)] }.presented = some (.setCell 0 1)) ∧
    ((asked [] (.setCell 999 99999)).presented = some (.setCell 999 99999) ∧
      (asked [] (.setCell 999 99999)).runState ≠ .running ∧ 999 < ramSize ∧ 99999 ≤ maxValue) ∧
    ((asked [] (.setCell 1000 0)).presented = some (.setCell 1000 0) ∧ ramSize ≤ 1000) ∧
    ((asked [] (.setCell 999 100000)).presented = some (.setCell 999 100000) ∧ maxValue < 100000) := by
  decide
theorem witness_HostReadsCell : (asked [] (.readCell 999)).runState ≠ .running ∧
    (asked [] (.readCell 999)).presented = some (.readCell 999) ∧ 999 < ramSize ∧
    (asked [] (.readCell 1000)).presented = some (.readCell 1000) ∧ ramSize ≤ 1000 := by decide
theorem witness_RequestWhileRunningHasNoEffect :
    { demo [] 0 0 with hostIn := [some (.start none)] }.runState = .running ∧
    { demo [] 0 0 with hostIn := [some (.start none)] }.presented = some (.start none) ∧
    HostRequest.start none ≠ .powerOnReset := by decide
theorem witness_PowerOnResetActsAtAnyTime :
    { demo [] 0 0 with hostIn := [some .powerOnReset] }.presented = some .powerOnReset := by decide
theorem witness_LoadPutsLineIntoItsCell : State.reset.runState ≠ .running ∧
    [Instr.take 10, .hlt 0].length ≤ ramSize ∧ (∀ i ∈ [Instr.take 10, .hlt 0], i.wf = true) ∧
    { State.reset with hostIn := [some (.setCell 0 1010), some (.setCell 1 10000), none] }.hostIn =
      loadRequests 0 [Instr.take 10, .hlt 0] ++ [none] := by decide
theorem witness_TraceRecordDescribesCycle :
    (result (step (demo [(0, 10000)] 42 0))).isSome = true ∧
    (demo [(0, 10000)] 42 0).emitted = some ⟨0, 10, 0, 42, false, 0, 0⟩ ∧
    (demo [(0, 11000)] 42 0).emitted = none := by decide
theorem witness_PortsShowHeldState :
    { demo [] 99999 1001 with runState := .failed .outOfBounds }.Sound ∧
    { demo [] 99999 1001 with runState := .failed .outOfBounds }.runState ≠ .running :=
  ⟨⟨⟨rfl, rfl, by decide, by decide⟩, rfl, by decide⟩, by decide⟩
/-- A Running state, and another Failed sound one, for the same statement. -/
theorem witness_PortsShowHeldState_clauses : (demo [] 99999 1001).runState = .running ∧
    { demo [] 0 0 with runState := .failed .illegalInstruction, failCode := 11000 }.Sound :=
  ⟨rfl, ⟨rfl, rfl, by decide, by decide⟩, by decide, by decide, by decide⟩
/-- Two runs that differ in memory, `acc` and the count, with the same (no) record and no request; and a
run that is asked to read a cell. -/
theorem witness_OnlyTraceIsObservableDuringRun :
    (demo [] 7 1000).runState = .running ∧
    { demo [(3, 4)] 9 1001 with opCount := 5 }.runState = .running ∧
    (demo [] 7 1000).presented = { demo [(3, 4)] 9 1001 with opCount := 5 }.presented ∧
    (demo [] 7 1000).emitted = { demo [(3, 4)] 9 1001 with opCount := 5 }.emitted ∧
    { demo [] 7 0 with hostIn := [some (.readCell 3)] }.observation.reply = some .busy ∧
    { demo [] 42 3 with runState := .halted }.runState ≠ .running := by decide
/-- R94, R131, R133: `acc` = 42, `ip` = 3 and the count 4 are on the outputs after the HLT, and were not
in the cycle that applied it. -/
theorem test_ports_at_end : (demo [(3, 10000)] 42 3).ports = ⟨1, 0, none⟩ ∧
    (result (step { demo [(3, 10000)] 42 3 with opCount := 3 })).map State.ports =
      some ⟨2, 0, some ⟨0, 4, 42, 3⟩⟩ := by decide
/-- The fail_reason codes written out from 60_exceptions.md R150. -/
theorem test_fail_reason_codes :
    ([Failure.outOfBounds, .valueOutOfRange, .illegalInstruction, .operationLimitExceeded].map
      fun f => { State.reset with runState := .failed f }.ports.failReason) = [1, 2, 3, 4] := by decide
theorem witness_PlacedWordIsRunNext : decodeTableWord 24 10999 = some (.hlt 999) := by decide

end Sys2Proof.Tests
end

section
/-! PROOFS. 20_memory.md R53: a store is seen by every later fetch of the stored cell. Decoding what the
encoder gives (30_encoding.md R66), the cycle whose checks pass (40_cycle_fsm.md R81), the effect of the
four storing instructions (20_memory.md R56), and the obligation from these. -/

namespace Sys2Proof.Machine

/-! ## The code of a well-formed instruction -/

/-- The fields of `encode i`, for every instruction (R60, R61). -/
theorem encode_fields : ∀ i : Instr, Laws.EncodeFields.Statement i
  | .noop a => Laws.EncodeFields.noop a
  | .take a => Laws.EncodeFields.take a
  | .add a => Laws.EncodeFields.add a
  | .sub a => Laws.EncodeFields.sub a
  | .save a => Laws.EncodeFields.save a
  | .jmp a => Laws.EncodeFields.jmp a
  | .tst a => Laws.EncodeFields.tst a
  | .inc a => Laws.EncodeFields.inc a
  | .dec a => Laws.EncodeFields.dec a
  | .null a => Laws.EncodeFields.null a
  | .hlt a => Laws.EncodeFields.hlt a
  | .unknown n a => Laws.EncodeFields.unknown n a

/-- The opcode map inverts the opcode of a well-formed instruction (R63, R64). -/
theorem kindOf_opcode {i : Instr} (h : i.wf = true) : kindOf i.opcode = i.kind := by
  cases i with
  | unknown n a =>
    simp only [Instr.wf, unknownOpcodeOk, Bool.and_eq_true, decide_eq_true_eq] at h
    obtain ⟨⟨hundefined, _⟩, _⟩ := h
    exact kindOf_unknown hundefined
  | _ => rfl

theorem kind_instr_operand (i : Instr) : i.kind.instr i.operand = i := by
  cases i <;> rfl

/-- The round trip (R66). -/
theorem decode_encode {i : Instr} (h : i.wf = true) : decode (encode i) = .instr i := by
  obtain ⟨hcode, hopcode, hoperand⟩ := encode_fields i h
  rw [decode_of_le hcode, hopcode, hoperand, kindOf_opcode h, kind_instr_operand]

theorem operand_lt_of_wf {i : Instr} (h : i.wf = true) : i.operand < Config.ramSize :=
  decode_operand_lt (decode_encode h)

/-! ## A cycle whose checks pass -/

/-- Steps 1 to 4 with every check passed (R81). -/
theorem fetch_of_decode {s : State} {i : Instr} (hip : s.ip < Config.ramSize)
    (hlimit : s.count.limitReached = false) (hdec : decode (s.mem.cellAt s.ip) = .instr i) :
    fetch s = .ready i s.count := by
  rcases fetch_cases s with ⟨hoff, _⟩ | ⟨_, hreached, _⟩ | ⟨_, _, hbig, _⟩ | ⟨_, _, _, j, hj, hfetch⟩
  · exact absurd hip (by omega)
  · simp [hlimit] at hreached
  · simp [decode_of_gt hbig] at hdec
  · cases hj.symm.trans hdec
    exact hfetch

/-- The step from a state that reaches step 4 applies the instruction its fetched code decodes to, with
the fetch counted and this step's input taken (R81, R84). -/
theorem step_of_executes {s : State} {code : Nat} {i : Instr} (h : s.Executes code)
    (hdec : decode code = .instr i) :
    step s = exec i { s with opCount := s.opCount + 1, hostIn := s.hostIn.tail } := by
  obtain ⟨hturn, hip, hlimit, rfl⟩ := h
  have hfetch : fetch s.takeInput = .ready i s.takeInput.count := fetch_of_decode hip hlimit hdec
  rw [step_of_engineTurn hturn, cycle, hfetch]
  rfl

/-! ## The storing instructions -/

/-- The state after an instruction of kind `k` has put `v` into `acc` and into its operand cell. -/
def State.afterStore (s : State) (k : Kind) (a v : Nat) : State :=
  ((s.setAcc v).setMem (s.mem.put a v)).advance k a false

/-- After a store the cell holds what `acc` holds. -/
theorem cellAt_afterStore (s : State) (k : Kind) (a v : Nat) :
    (s.afterStore k a v).mem.cellAt a = (s.afterStore k a v).acc := by
  simp [State.afterStore]

/-- INC and DEC on a cell that exists, with an operation that stays in range (R113, R114). -/
theorem updateCell_of_lt {s : State} {a : Nat} {k : Kind} {f : Nat → Nat} (ha : a < Config.ramSize)
    (hf : ∀ v, v ≤ Config.maxValue → f v ≤ Config.maxValue) :
    updateCell s a k f = .ok (s.afterStore k a (f (dataValue a (s.mem.cellAt a)))) := by
  unfold updateCell
  rw [loadOperand_of_lt ha]
  simp only [Except.bind]
  rw [storeOperand_of_le ha (hf _ (dataValue_le _ _))]
  rfl

theorem exec_save_of_le {s : State} {a : Nat} (ha : a < Config.ramSize)
    (hacc : s.acc ≤ Config.maxValue) :
    exec (.save a) s = .next (s.afterStore .save a s.acc) := by
  simp only [exec, execSave]
  rw [storeOperand_of_le ha hacc]
  rfl

theorem exec_null_of_lt {s : State} {a : Nat} (ha : a < Config.ramSize) :
    exec (.null a) s = .next (s.afterStore .null a 0) := by
  simp only [exec, execNull]
  rw [storeOperand_of_le ha (Nat.zero_le _)]
  rfl

theorem exec_inc_of_lt {s : State} {a : Nat} (ha : a < Config.ramSize) :
    exec (.inc a) s = .next (s.afterStore .inc a (satAdd (dataValue a (s.mem.cellAt a)) 1)) := by
  simp only [exec, execInc]
  rw [updateCell_of_lt ha fun v _ => satAdd_le v 1, finishEffect_ok]

theorem exec_dec_of_lt {s : State} {a : Nat} (ha : a < Config.ramSize) :
    exec (.dec a) s = .next (s.afterStore .dec a (satSub (dataValue a (s.mem.cellAt a)) 1)) := by
  simp only [exec, execDec]
  rw [updateCell_of_lt ha fun v hv => satSub_le 1 hv, finishEffect_ok]

/-- Everything an instruction of the write column of R56 can be. -/
theorem storing_cases {i : Instr} (h : i.kind ∈ [Kind.save, .inc, .dec, .null]) :
    i = .save i.operand ∨ i = .inc i.operand ∨ i = .dec i.operand ∨ i = .null i.operand := by
  have hi := kind_instr_operand i
  simp only [List.mem_cons, List.not_mem_nil, or_false] at h
  rcases h with hk | hk | hk | hk <;> rw [hk] at hi
  · exact .inl hi.symm
  · exact .inr (.inl hi.symm)
  · exact .inr (.inr (.inl hi.symm))
  · exact .inr (.inr (.inr hi.symm))

/-- All that a storing instruction does, with `acc` in range (R56). -/
theorem exec_storing {i : Instr} {s : State} (hwf : i.wf = true) (hacc : s.acc ≤ Config.maxValue)
    (hkind : i.kind ∈ [Kind.save, .inc, .dec, .null]) :
    ∃ v, exec i s = .next (s.afterStore i.kind i.operand v) := by
  have ha := operand_lt_of_wf hwf
  rcases storing_cases hkind with hi | hi | hi | hi <;> rw [hi]
  · exact ⟨_, exec_save_of_le ha hacc⟩
  · exact ⟨_, exec_inc_of_lt ha⟩
  · exact ⟨_, exec_dec_of_lt ha⟩
  · exact ⟨_, exec_null_of_lt ha⟩

/-- The operand cell of a storing instruction holds what `acc` then holds. -/
theorem cellAt_operand_of_exec_storing {i : Instr} {s t : State} (hwf : i.wf = true)
    (hacc : s.acc ≤ Config.maxValue) (hkind : i.kind ∈ [Kind.save, .inc, .dec, .null])
    (hexec : exec i s = .next t) : t.mem.cellAt i.operand = t.acc := by
  obtain ⟨v, hv⟩ := exec_storing hwf hacc hkind
  cases hexec.symm.trans hv
  exact cellAt_afterStore s i.kind i.operand v

/-- Settles O32. The storing cycle runs the copy already decoded from its own code; a later fetch at the
operand reads the stored value, so it reaches step 4 with that value as its code. -/
theorem storeIsSeenByLaterFetch : Obligations.StoreIsSeenByLaterFetch := by
  intro i s t hwf hacc hkind hexec
  refine ⟨fun hs => step_of_executes hs (decode_encode hwf), ?_⟩
  intro j u hmem hip hturn hlimit hdec
  have hcode : u.mem.cellAt u.ip = t.acc := by
    rw [hmem, hip, cellAt_operand_of_exec_storing hwf hacc hkind hexec]
  have hu : u.Executes t.acc := ⟨hturn, hip ▸ operand_lt_of_wf hwf, hlimit, hcode⟩
  exact step_of_executes hu hdec

end Sys2Proof.Machine
end

section
/-! PROOFS. 30_encoding.md R63 and R73: the rows of the opcode map, and the outputs of the decoder
block. -/

namespace Sys2Proof.Machine

/-! ## The opcode map -/

/-- One row of the opcode map, read both ways (R63): a well-formed instruction and the number its two
fields make. -/
theorem decode_encode_of_fields {i : Instr} {n a : Nat} (hwf : i.wf = true) (hn : i.opcode = n)
    (ha : i.operand = a) : decode (n * 1000 + a) = .instr i ∧ encode i = n * 1000 + a := by
  have hencode : encode i = n * 1000 + a := encode_of_fields i hn ha
  exact ⟨hencode ▸ decode_encode hwf, hencode⟩

/-- The row of opcode `n`, its code spelled as in the map, set before the rows after it. -/
theorem opcodeMap_row (n a : Nat) {i : Instr} {code : Nat} {rows : Prop} (hwf : i.wf = true)
    (hn : i.opcode = n) (ha : i.operand = a) (hcode : n * 1000 + a = code) (hrows : rows) :
    decode code = .instr i ∧ encode i = code ∧ rows :=
  and_assoc.mp ⟨hcode ▸ decode_encode_of_fields hwf hn ha, hrows⟩

theorem unknown_wf {n a : Nat} (hlow : 11 ≤ n) (hhigh : n ≤ 99) (ha : operandOk a = true) :
    (Instr.unknown n a).wf = true := by
  simp only [Instr.wf, unknownOpcodeOk, ha, Bool.and_true, Bool.and_eq_true, decide_eq_true_eq]
  exact ⟨hlow, hhigh⟩

/-- Settles O5. An operand below 1000 makes the instruction of every row well-formed, so the round trip
(R66) gives each row. -/
theorem decodeFollowsOpcodeMap : Obligations.DecodeFollowsOpcodeMap := by
  intro a ha
  have hok : operandOk a = true := decide_eq_true ha
  exact
    opcodeMap_row 0 a (i := .noop a) hok rfl rfl (by omega) <|
    opcodeMap_row 1 a (i := .take a) hok rfl rfl (by omega) <|
    opcodeMap_row 2 a (i := .add a) hok rfl rfl (by omega) <|
    opcodeMap_row 3 a (i := .sub a) hok rfl rfl (by omega) <|
    opcodeMap_row 4 a (i := .save a) hok rfl rfl (by omega) <|
    opcodeMap_row 5 a (i := .jmp a) hok rfl rfl (by omega) <|
    opcodeMap_row 6 a (i := .tst a) hok rfl rfl (by omega) <|
    opcodeMap_row 7 a (i := .inc a) hok rfl rfl (by omega) <|
    opcodeMap_row 8 a (i := .dec a) hok rfl rfl (by omega) <|
    opcodeMap_row 9 a (i := .null a) hok rfl rfl (by omega) <|
    opcodeMap_row 10 a (i := .hlt a) hok rfl rfl (by omega) <|
    fun _ hlow hhigh => decode_encode_of_fields (unknown_wf hlow hhigh hok) rfl rfl

/-! ## The decoder block -/

/-- The two decimal fields of a code in range, and the code from them (R61). -/
theorem decimal_fields {code : Nat} (h : code ≤ Config.maxValue) :
    opcodeOf code ≤ 99 ∧ operandOf code ≤ 999 ∧ 1000 * opcodeOf code + operandOf code = code := by
  have hsplit : 1000 * opcodeOf code + operandOf code = code := Nat.div_add_mod code 1000
  have hoperand : operandOf code < 1000 := Nat.mod_lt code (by decide)
  simp only [Config.maxValue] at h
  omega

/-- The map gives the unknown kind for the opcodes it has no mnemonic for, and for no other (R63, R64). -/
theorem kindOf_eq_unknown_iff (n : Nat) : kindOf n = .unknown n ↔ 11 ≤ n := by
  refine ⟨fun hkind => ?_, kindOf_unknown⟩
  by_contra hlow
  have hdefined : n ≤ 10 := by omega
  interval_cases n <;> cases hkind

/-- Settles O6. The block's outputs are the decimal fields of the code and the map at its opcode; in
range, `decode` is built from the same. -/
theorem decoderBlockOutputs : Obligations.DecoderBlockOutputs := by
  intro code
  refine ⟨decide_eq_true_iff, fun h => ?_⟩
  obtain ⟨hopcode, hoperand, hsplit⟩ := decimal_fields h
  exact ⟨hopcode, hoperand, hsplit, decode_of_le h, kindOf_eq_unknown_iff _⟩

end Sys2Proof.Machine
end

section
/-! PROOFS. 40_cycle_fsm.md R82 and R89: the cycle that starts outside memory, and the order of the
checks. One equation for the step at each check that can fail, the step of an instruction that has a
mnemonic, and the two obligations from these. -/

namespace Sys2Proof.Machine

/-! ## Every step goes on -/

theorem finishEffect_next (s : State) (code : Nat) (effect : Except Failure State) :
    ∃ t, finishEffect s code effect = .next t := by
  cases effect with
  | error f => exact ⟨_, finishEffect_error s code f⟩
  | ok t => exact ⟨t, finishEffect_ok s t code⟩

/-- A failure is a next state too (R157). -/
theorem exec_next (i : Instr) (s : State) : ∃ t, exec i s = .next t := by
  cases i with
  | noop a => exact ⟨_, rfl⟩
  | jmp a => exact ⟨_, rfl⟩
  | hlt a => exact ⟨_, rfl⟩
  | unknown n a => exact ⟨_, rfl⟩
  | take a => exact finishEffect_next ..
  | add a => exact finishEffect_next ..
  | sub a => exact finishEffect_next ..
  | save a => exact finishEffect_next ..
  | tst a => exact finishEffect_next ..
  | inc a => exact finishEffect_next ..
  | dec a => exact finishEffect_next ..
  | null a => exact finishEffect_next ..

theorem cycle_next (s : State) : ∃ t, cycle s = .next t := by
  unfold cycle
  cases fetch s with
  | failed t => exact ⟨t, rfl⟩
  | ready i t => exact exec_next i t

theorem step_next (s : State) : ∃ t, step s = .next t := by
  rcases step_cases s with ⟨_, hstep⟩ | ⟨_, _, hstep⟩ | ⟨r, _, _, hstep⟩
  · rw [hstep]
    exact cycle_next s.takeInput
  · exact ⟨_, hstep⟩
  · exact ⟨_, hstep⟩

/-! ## Steps 1 to 4, check by check -/

theorem fetch_of_ip_ge {s : State} (hip : Config.ramSize ≤ s.ip) :
    fetch s = .failed (s.raise .outOfBounds none) := if_pos hip

theorem fetch_of_ip_lt {s : State} (hip : s.ip < Config.ramSize) :
    fetch s = decodeFetched (s.mem.cellAt s.ip) s.count := by
  unfold fetch
  rw [if_neg (by omega), memRead_ok_iff.mpr ⟨hip, rfl⟩]

theorem decodeFetched_of_limitReached {t : State} (code : Nat) (hlimit : t.limitReached = true) :
    decodeFetched code t = .failed (t.raise .operationLimitExceeded (some code)) := if_pos hlimit

theorem decodeFetched_of_gt {t : State} {code : Nat} (hlimit : t.limitReached = false)
    (hcode : Config.maxValue < code) :
    decodeFetched code t = .failed (t.raise .valueOutOfRange (some code)) := by
  unfold decodeFetched
  rw [if_neg (by simp [hlimit]), decode_of_gt hcode]

/-! ## The step that fails at a check -/

theorem step_of_fetch_failed {s t : State} (hturn : s.EngineTurn)
    (hfetch : fetch s.takeInput = .failed t) : step s = .next t := by
  rw [step_of_engineTurn hturn, cycle, hfetch]

/-- Step 1 fails: nothing is fetched or counted (R82). -/
theorem step_of_ip_ge {s : State} (hturn : s.EngineTurn) (hip : Config.ramSize ≤ s.ip) :
    step s = .next (s.takeInput.raise .outOfBounds none) :=
  step_of_fetch_failed hturn (fetch_of_ip_ge hip)

/-- Step 3 fails, whatever code was fetched (R84). -/
theorem step_of_limitReached {s : State} (hturn : s.EngineTurn) (hip : s.ip < Config.ramSize)
    (hlimit : s.count.limitReached = true) :
    step s = .next
      (s.takeInput.count.raise .operationLimitExceeded (some (s.mem.cellAt s.ip))) :=
  step_of_fetch_failed hturn
    ((fetch_of_ip_lt (s := s.takeInput) hip).trans (decodeFetched_of_limitReached _ hlimit))

/-- Step 4 fails: the code is not a cell value (R85). -/
theorem step_of_code_gt {s : State} {code : Nat} (h : s.Executes code)
    (hcode : Config.maxValue < code) :
    step s = .next (s.takeInput.count.raise .valueOutOfRange (some code)) := by
  obtain ⟨hturn, hip, hlimit, rfl⟩ := h
  exact step_of_fetch_failed hturn
    ((fetch_of_ip_lt (s := s.takeInput) hip).trans (decodeFetched_of_gt hlimit hcode))

/-! ## The unknown opcodes -/

/-- The codes from 11000 are those of the opcodes without a mnemonic (R63, R64). -/
theorem decode_of_illegal {code : Nat} (hlow : 11000 ≤ code) (hhigh : code ≤ Config.maxValue) :
    decode code = .instr (.unknown (opcodeOf code) (operandOf code)) := by
  have hopcode : 10 < opcodeOf code := (Nat.le_div_iff_mul_le (by decide)).mpr hlow
  rw [decode_of_le hhigh, kindOf_unknown hopcode]
  rfl

theorem Kind.instr_kind (k : Kind) (a : Nat) : (k.instr a).kind = k := by
  cases k <;> rfl

theorem kind_of_decode {code : Nat} {i : Instr} (h : decode code = .instr i) :
    i.kind = kindOf (opcodeOf code) := by
  unfold decode at h
  split at h
  · cases h
    exact Kind.instr_kind ..
  · cases h

/-- A code below 11000 has a mnemonic (R63). -/
theorem kind_ne_unknown_of_decode {code : Nat} {i : Instr} (hdec : decode code = .instr i)
    (hcode : code < 11000) (n : Nat) : i.kind ≠ .unknown n := by
  have hopcode : opcodeOf code < 11 := Nat.div_lt_of_lt_mul hcode
  rw [kind_of_decode hdec]
  intro hkind
  interval_cases opcodeOf code <;> cases hkind

/-- Step 5 fails: the fetched opcode has no mnemonic (R86, R153). -/
theorem step_of_illegal {s : State} {code : Nat} (h : s.Executes code) (hlow : 11000 ≤ code)
    (hhigh : code ≤ Config.maxValue) :
    ∃ t, step s = .next t ∧ t.runState = .failed .illegalInstruction :=
  ⟨_, step_of_executes h (decode_of_illegal hlow hhigh), rfl⟩

/-! ## An instruction that has a mnemonic -/

/-- An effect that reads its operand, on a cell that exists. -/
theorem finishEffect_load_of_lt {s : State} {a : Nat} (code : Nat) (f : Nat → State)
    (ha : a < Config.ramSize) :
    finishEffect s code ((loadOperand s a).map f) = .next (f (dataValue a (s.mem.cellAt a))) := by
  rw [loadOperand_of_lt ha]
  rfl

/-- With its operand a cell that exists and `acc` in range, a defined instruction raises nothing: both
accesses of its effect pass (R42, R89). -/
theorem exec_runState_of_defined {i : Instr} {s : State} (ha : i.operand < Config.ramSize)
    (hacc : s.acc ≤ Config.maxValue) (hdefined : ∀ n, i.kind ≠ .unknown n) :
    ∃ t, exec i s = .next t ∧ (t.runState = s.runState ∨ t.runState = .halted) := by
  cases i with
  | noop a => exact ⟨_, rfl, .inl rfl⟩
  | jmp a => exact ⟨_, rfl, .inl rfl⟩
  | hlt a => exact ⟨_, rfl, .inr rfl⟩
  | take a => exact ⟨_, finishEffect_load_of_lt _ _ ha, .inl rfl⟩
  | add a => exact ⟨_, finishEffect_load_of_lt _ _ ha, .inl rfl⟩
  | sub a => exact ⟨_, finishEffect_load_of_lt _ _ ha, .inl rfl⟩
  | tst a => exact ⟨_, finishEffect_load_of_lt _ _ ha, .inl rfl⟩
  | save a => exact ⟨_, exec_save_of_le ha hacc, .inl rfl⟩
  | inc a => exact ⟨_, exec_inc_of_lt ha, .inl rfl⟩
  | dec a => exact ⟨_, exec_dec_of_lt ha, .inl rfl⟩
  | null a => exact ⟨_, exec_null_of_lt ha, .inl rfl⟩
  | unknown n a => exact absurd rfl (hdefined n)

theorem isFailed_iff {s : State} : s.isFailed = true ↔ ∃ f, s.runState = .failed f := by
  unfold State.isFailed
  cases s.runState <;> simp

/-- Every check passes and the code has a mnemonic: the cycle raises no failure. -/
theorem step_of_defined {s : State} {code : Nat} (h : s.Executes code) (hcode : code < 11000)
    (hacc : s.acc ≤ Config.maxValue) : ∃ t, step s = .next t ∧ t.isFailed = false := by
  have hdec := decode_of_le (hcode.le.trans (by decide : 11000 ≤ Config.maxValue))
  obtain ⟨t, hexec, hrun⟩ :=
    exec_runState_of_defined (s := s.takeInput.count) (decode_operand_lt hdec) hacc
      (kind_ne_unknown_of_decode hdec hcode)
  refine ⟨t, (step_of_executes h hdec).trans hexec, ?_⟩
  obtain ⟨⟨hrunning, _⟩, _⟩ := h
  rw [← Bool.not_eq_true, isFailed_iff]
  rintro ⟨f, hfailed⟩
  rcases hrun with hrun | hrun <;> simp [hfailed, hrunning] at hrun

/-! ## The obligations -/

/-- Settles O36. The step has one next state, and the equation at the first check that fails says which;
where none fails, the code has a mnemonic. -/
theorem failurePriorityOfCycle : Obligations.FailurePriorityOfCycle := by
  intro s hturn
  obtain ⟨t, ht⟩ := step_next s
  refine ⟨t, ht, fun hip => ?_, fun hip hlimit => ?_, fun hip hlimit hcode => ?_,
    fun hip hlimit hlow hhigh => ?_, fun hip hlimit hcode hacc => ?_⟩
  · cases ht.symm.trans (step_of_ip_ge hturn hip)
    rfl
  · cases ht.symm.trans (step_of_limitReached hturn hip hlimit)
    rfl
  · cases ht.symm.trans (step_of_code_gt ⟨hturn, hip, hlimit, rfl⟩ hcode)
    exact ⟨rfl, rfl⟩
  · obtain ⟨u, hu, hfailed⟩ := step_of_illegal ⟨hturn, hip, hlimit, rfl⟩ hlow hhigh
    cases ht.symm.trans hu
    exact hfailed
  · obtain ⟨u, hu, hwell⟩ := step_of_defined ⟨hturn, hip, hlimit, rfl⟩ hcode hacc
    cases ht.symm.trans hu
    exact hwell

/-- Settles O34. Step 1 raises on the state with this step's input taken, without a fetched code to
record, so the failure context is `ip`. -/
theorem cycleOutsideMemoryFails : Obligations.CycleOutsideMemoryFails := by
  intro s hturn hip
  exact ⟨_, step_of_ip_ge hturn hip, rfl, rfl⟩

end Sys2Proof.Machine
end

section
/-! PROOFS. 41_load_store.md R100 to R102: TAKE, SAVE and NULL. The rule that joins the effect of any
decoded instruction to the cycle around it, the effects of the three with the next state written out,
and the obligations from these. -/

namespace Sys2Proof.Machine

/-! ## From the effect to the whole cycle -/

/-- One row of the opcode map with its code spelled as in the map (R63). -/
theorem decode_of_row (n a : Nat) {i : Instr} {code : Nat} (hwf : i.wf = true) (hn : i.opcode = n)
    (ha : i.operand = a) (hcode : n * 1000 + a = code) : decode code = .instr i :=
  hcode ▸ (decode_encode_of_fields hwf hn ha).1

/-- A state that has run off the end of memory fails at step 1 of its next cycle (R82). -/
theorem failsOffEnd_of_ip_ge {t : State} (hip : Config.ramSize ≤ t.ip) : t.FailsOffEnd :=
  fun hturn => step_of_ip_ge hturn hip

/-- The cycle applies the effect to the state with the fetch counted and this step's input taken, so
`CycleGives` asks for the effect there (R81). -/
theorem cycleGives_of_exec {s t : State} {code : Nat} {i : Instr} (hdec : decode code = .instr i)
    (hexec : exec i { s with opCount := s.opCount + 1, hostIn := s.hostIn.tail } =
      .next { t with opCount := s.opCount + 1, hostIn := s.hostIn.tail }) :
    s.CycleGives code t :=
  ⟨fun h => (step_of_executes h hdec).trans hexec, failsOffEnd_of_ip_ge⟩

/-! ## The effects, with the next state written out -/

theorem exec_take_eq {s : State} {a : Nat} (ha : a < Config.ramSize)
    (hcell : s.mem.cellAt a ≤ Config.maxValue) :
    exec (.take a) s = .next { s with acc := s.mem.cellAt a, ip := s.ip + 1 } := by
  have hload : exec (.take a) s =
      .next ((s.setAcc (dataValue a (s.mem.cellAt a))).advance .take a false) :=
    finishEffect_load_of_lt _ _ ha
  rw [hload, dataValue_of_le hcell]
  rfl

/-- SAVE writes `acc` back to itself in `afterStore`, so only the cell and `ip` change. -/
theorem exec_save_eq {s : State} {a : Nat} (ha : a < Config.ramSize)
    (hacc : s.acc ≤ Config.maxValue) :
    exec (.save a) s = .next { s with mem := s.mem.put a s.acc, ip := s.ip + 1 } :=
  exec_save_of_le ha hacc

theorem exec_null_eq {s : State} {a : Nat} (ha : a < Config.ramSize) :
    exec (.null a) s = .next { s with mem := s.mem.put a 0, acc := 0, ip := s.ip + 1 } :=
  exec_null_of_lt ha

/-! ## The obligations -/

/-- Settles O13. The operand cell is in range, so the value loaded is the one it holds. -/
theorem takeLoadsAccumulator : Obligations.TakeLoadsAccumulator := by
  intro a s ha hcell
  have hdec : decode (1000 + a) = .instr (.take a) :=
    decode_of_row 1 a (decide_eq_true ha) rfl rfl (by omega)
  exact ⟨hdec, exec_take_eq ha hcell, cycleGives_of_exec hdec (exec_take_eq ha hcell)⟩

/-- Settles O14. The new memory is the old one with `acc` put at the operand, which is the effective
address (R103). -/
theorem saveStoresAccumulator : Obligations.SaveStoresAccumulator := by
  intro a s ha hacc
  have hdec : decode (4000 + a) = .instr (.save a) :=
    decode_of_row 4 a (decide_eq_true ha) rfl rfl (by omega)
  exact ⟨hdec, s.mem.put a s.acc, cellAt_put s.mem a s.acc,
    exec_save_eq ha hacc, cycleGives_of_exec hdec (exec_save_eq ha hacc)⟩

/-- Settles O15. The value stored is 0, which is in range whatever `acc` and the cell held. -/
theorem nullClearsAccumulatorAndCell : Obligations.NullClearsAccumulatorAndCell := by
  intro a s ha
  have hdec : decode (9000 + a) = .instr (.null a) :=
    decode_of_row 9 a (decide_eq_true ha) rfl rfl (by omega)
  exact ⟨hdec, s.mem.put a 0, cellAt_put s.mem a 0,
    exec_null_eq ha, cycleGives_of_exec hdec (exec_null_eq ha)⟩

end Sys2Proof.Machine
end

section
/-! PROOFS. 42_arithmetic.md R111 to R114: ADD, SUB, INC and DEC. The difference of the ALU on integers,
the effects of the four with the next state written out, and the obligations from these. -/

namespace Sys2Proof.Machine

/-! ## The difference on integers -/

/-- `sat_sub` as R110 states it, without leaving the integers. -/
theorem satSub_cast (a b : Nat) : (satSub a b : Int) = max 0 ((a : Int) - (b : Int)) :=
  Int.toNat_of_nonneg (Int.le_max_left ..)

/-! ## The effects, whatever number the operand cell holds -/

theorem exec_add_of_lt {s : State} {a : Nat} (ha : a < Config.ramSize) :
    exec (.add a) s =
      .next ((s.setAcc (satAdd s.acc (dataValue a (s.mem.cellAt a)))).advance .add a false) :=
  finishEffect_load_of_lt _ _ ha

theorem exec_sub_of_lt {s : State} {a : Nat} (ha : a < Config.ramSize) :
    exec (.sub a) s =
      .next ((s.setAcc (satSub s.acc (dataValue a (s.mem.cellAt a)))).advance .sub a false) :=
  finishEffect_load_of_lt _ _ ha

/-! ## The effects on a cell in range, with the next state written out -/

theorem exec_add_eq {s : State} {a : Nat} (ha : a < Config.ramSize)
    (hcell : s.mem.cellAt a ≤ Config.maxValue) :
    exec (.add a) s = .next { s with acc := satAdd s.acc (s.mem.cellAt a), ip := s.ip + 1 } := by
  rw [exec_add_of_lt ha, dataValue_of_le hcell]
  rfl

theorem exec_sub_eq {s : State} {a : Nat} (ha : a < Config.ramSize)
    (hcell : s.mem.cellAt a ≤ Config.maxValue) :
    exec (.sub a) s = .next { s with acc := satSub s.acc (s.mem.cellAt a), ip := s.ip + 1 } := by
  rw [exec_sub_of_lt ha, dataValue_of_le hcell]
  rfl

theorem exec_inc_eq {s : State} {a : Nat} (ha : a < Config.ramSize)
    (hcell : s.mem.cellAt a ≤ Config.maxValue) :
    exec (.inc a) s =
      .next { s with
        mem := s.mem.put a (satAdd (s.mem.cellAt a) 1)
        acc := satAdd (s.mem.cellAt a) 1
        ip := s.ip + 1 } := by
  rw [exec_inc_of_lt ha, dataValue_of_le hcell]
  rfl

theorem exec_dec_eq {s : State} {a : Nat} (ha : a < Config.ramSize)
    (hcell : s.mem.cellAt a ≤ Config.maxValue) :
    exec (.dec a) s =
      .next { s with
        mem := s.mem.put a (satSub (s.mem.cellAt a) 1)
        acc := satSub (s.mem.cellAt a) 1
        ip := s.ip + 1 } := by
  rw [exec_dec_of_lt ha, dataValue_of_le hcell]
  rfl

/-! ## The obligations -/

/-- Settles O16. The operand cell is in range, so the sum of the ALU is that of `acc` and what the cell
holds. -/
theorem addSaturates : Obligations.AddSaturates := by
  intro a s ha hcell
  have hdec : decode (2000 + a) = .instr (.add a) :=
    decode_of_row 2 a (decide_eq_true ha) rfl rfl (by omega)
  rw [← satAdd_eq]
  exact ⟨hdec, exec_add_eq ha hcell, cycleGives_of_exec hdec (exec_add_eq ha hcell)⟩

/-- Settles O17. The result is the ALU's difference, which is the integer one floored at 0. -/
theorem subFloorsAtZero : Obligations.SubFloorsAtZero := by
  intro a s ha hcell
  have hdec : decode (3000 + a) = .instr (.sub a) :=
    decode_of_row 3 a (decide_eq_true ha) rfl rfl (by omega)
  exact ⟨hdec, satSub s.acc (s.mem.cellAt a), satSub_cast ..,
    exec_sub_eq ha hcell, cycleGives_of_exec hdec (exec_sub_eq ha hcell)⟩

/-- Settles O18. The new memory is the old one with the incremented cell put at the operand, which is
the effective address (R103). -/
theorem incUpdatesCellAndAccumulator : Obligations.IncUpdatesCellAndAccumulator := by
  intro a s ha hcell
  have hdec : decode (7000 + a) = .instr (.inc a) :=
    decode_of_row 7 a (decide_eq_true ha) rfl rfl (by omega)
  exact ⟨hdec, satAdd (s.mem.cellAt a) 1, s.mem.put a _, satAdd_eq .., cellAt_put s.mem a _,
    exec_inc_eq ha hcell, cycleGives_of_exec hdec (exec_inc_eq ha hcell)⟩

/-- Settles O19. As INC, with the ALU's difference of the cell and 1. -/
theorem decUpdatesCellAndAccumulator : Obligations.DecUpdatesCellAndAccumulator := by
  intro a s ha hcell
  have hdec : decode (8000 + a) = .instr (.dec a) :=
    decode_of_row 8 a (decide_eq_true ha) rfl rfl (by omega)
  exact ⟨hdec, satSub (s.mem.cellAt a) 1, s.mem.put a _, satSub_cast .., cellAt_put s.mem a _,
    exec_dec_eq ha hcell, cycleGives_of_exec hdec (exec_dec_eq ha hcell)⟩

end Sys2Proof.Machine
end

section
/-! PROOFS. 43_control.md R120 to R122: NOOP, JMP and TST. The program counter of TST, the effects of the
three with the next state written out, and the obligations from these. -/

namespace Sys2Proof.Machine

/-! ## The effects, with the next state written out -/

theorem exec_noop_eq (a : Nat) (s : State) : exec (.noop a) s = .next { s with ip := s.ip + 1 } :=
  rfl

theorem exec_jmp_eq (a : Nat) (s : State) : exec (.jmp a) s = .next { s with ip := a } := rfl

/-- The flag the program-counter logic takes is the test of the loaded value against 0 (R125). -/
theorem nextIp_tst_isZero (ip a v : Nat) :
    nextIp .tst ip a (isZero v) = if v = 0 then ip + 2 else ip + 1 := by
  simp only [nextIp, isZero, decide_eq_true_eq]

/-- TST on a cell that exists, whatever number the cell holds. -/
theorem exec_tst_of_lt {s : State} {a : Nat} (ha : a < Config.ramSize) :
    exec (.tst a) s =
      .next { s with
        acc := dataValue a (s.mem.cellAt a)
        ip := if dataValue a (s.mem.cellAt a) = 0 then s.ip + 2 else s.ip + 1 } := by
  rw [← nextIp_tst_isZero s.ip a]
  exact finishEffect_load_of_lt _ _ ha

theorem exec_tst_eq {s : State} {a : Nat} (ha : a < Config.ramSize)
    (hcell : s.mem.cellAt a ≤ Config.maxValue) :
    exec (.tst a) s =
      .next { s with
        acc := s.mem.cellAt a
        ip := if s.mem.cellAt a = 0 then s.ip + 2 else s.ip + 1 } := by
  rw [exec_tst_of_lt ha, dataValue_of_le hcell]

theorem exec_tst_of_ne_zero {s : State} {a : Nat} (ha : a < Config.ramSize)
    (hcell : s.mem.cellAt a ≤ Config.maxValue) (hne : s.mem.cellAt a ≠ 0) :
    exec (.tst a) s = .next { s with acc := s.mem.cellAt a, ip := s.ip + 1 } := by
  rw [exec_tst_eq ha hcell, if_neg hne]

theorem exec_tst_of_eq_zero {s : State} {a : Nat} (ha : a < Config.ramSize)
    (hzero : s.mem.cellAt a = 0) :
    exec (.tst a) s = .next { s with acc := 0, ip := s.ip + 2 } := by
  rw [exec_tst_eq ha (hzero ▸ Nat.zero_le _), if_pos hzero, hzero]

/-! ## The obligations -/

/-- Settles O20. NOOP accesses no memory, so its operand only has to be one the code can hold (R68). -/
theorem noopOnlyAdvances : Obligations.NoopOnlyAdvances := by
  intro a s ha
  have hdec : decode a = .instr (.noop a) :=
    decode_of_row 0 a (decide_eq_true ha) rfl rfl (by omega)
  exact ⟨hdec, exec_noop_eq a s, cycleGives_of_exec hdec (exec_noop_eq a _)⟩

/-- Settles O21. The operand replaces `ip`, which is not incremented after it. -/
theorem jmpSetsInstructionPointer : Obligations.JmpSetsInstructionPointer := by
  intro a s ha
  have hdec : decode (5000 + a) = .instr (.jmp a) :=
    decode_of_row 5 a (decide_eq_true ha) rfl rfl (by omega)
  exact ⟨hdec, exec_jmp_eq a s, cycleGives_of_exec hdec (exec_jmp_eq a _)⟩

/-- Settles O22. The operand cell is in range, so the value tested is the one it holds, and the two
cases are those of the test. -/
theorem tstLoadsAndSkipsOnZero : Obligations.TstLoadsAndSkipsOnZero := by
  intro a s ha hcell
  have hdec : decode (6000 + a) = .instr (.tst a) :=
    decode_of_row 6 a (decide_eq_true ha) rfl rfl (by omega)
  refine ⟨hdec, fun hne => ?_, fun hzero => ?_⟩
  · exact ⟨exec_tst_of_ne_zero ha hcell hne,
      cycleGives_of_exec hdec (exec_tst_of_ne_zero ha hcell hne)⟩
  · exact ⟨exec_tst_of_eq_zero ha hzero, cycleGives_of_exec hdec (exec_tst_of_eq_zero ha hzero)⟩

end Sys2Proof.Machine
end

section
/-! PROOFS. 50_interfaces.md R134: the host's read of a cell. The step and the answer for a request that
is accepted because the machine is not Running, the answer to a read on each side of the address check,
and the obligation from these. -/

namespace Sys2Proof.Machine

/-! ## A request presented while not Running -/

/-- Only a running machine refuses (R55, R137). -/
theorem refusedIn_of_not_running {s : State} (r : HostRequest) (hrun : s.runState ≠ .running) :
    r.refusedIn s = false := by
  have hstopped : s.isRunning = false := by rwa [← Bool.not_eq_true, isRunning_iff]
  rw [HostRequest.refusedIn, hstopped, Bool.false_and]

/-- The request is what acts in this step: neither a cycle nor an idle step is possible (R80, R139). -/
theorem step_of_request {s : State} {r : HostRequest} (hrun : s.runState ≠ .running)
    (hreq : s.presented = some r) : step s = .next (serve r s.takeInput) := by
  rcases step_cases s with ⟨⟨hrunning, _⟩, _⟩ | ⟨_, hnone, _⟩ | ⟨q, hq, _, hstep⟩
  · exact absurd hrunning hrun
  · cases hreq.symm.trans hnone
  · cases hreq.symm.trans hq
    exact hstep

theorem hostReply_of_request {s : State} {r : HostRequest} (hrun : s.runState ≠ .running)
    (hreq : s.presented = some r) : s.hostReply = acceptedReply r s := by
  simp [State.hostReply, hreq, refusedIn_of_not_running r hrun]

/-! ## The answer to a read -/

theorem acceptedReply_readCell_of_lt {s : State} {a : Nat} (ha : a < Config.ramSize) :
    acceptedReply (.readCell a) s = some (.value (s.mem.cellAt a)) := by
  rw [acceptedReply, memRead_ok_iff.mpr ⟨ha, rfl⟩]

theorem acceptedReply_readCell_of_ge {s : State} {a : Nat} (ha : Config.ramSize ≤ a) :
    acceptedReply (.readCell a) s = some (.failed .outOfBounds) := by
  rw [acceptedReply, memRead_error_iff.mpr ⟨ha, rfl⟩]

/-! ## The obligation -/

/-- Settles O50. The request is accepted, serving a read is the identity on the state with this step's
input taken, and the answer is that of the memory's checked read (R41). -/
theorem hostReadsCell : Obligations.HostReadsCell := by
  intro s a hrun hreq
  refine ⟨step_of_request hrun hreq, fun ha => ?_, fun ha => ?_⟩
  · exact (hostReply_of_request hrun hreq).trans (acceptedReply_readCell_of_lt ha)
  · exact (hostReply_of_request hrun hreq).trans (acceptedReply_readCell_of_ge ha)

end Sys2Proof.Machine
end

section
/-! PROOFS. 60_exceptions.md R153: an opcode 11 to 99 is a failure when it is executed. The effect of such
an opcode with the next state written out, TAKE, SAVE and the host's read of a cell that holds its code,
and the obligation from these. -/

namespace Sys2Proof.Machine

/-! ## Executing the code -/

/-- The failure records the code that the two fields make (R63). -/
theorem exec_unknown_eq (n a : Nat) (s : State) :
    exec (.unknown n a) s =
      .next { s with runState := .failed .illegalInstruction, failCode := n * 1000 + a } := by
  rw [← encode_of_fields (.unknown n a) (n := n) (a := a) rfl rfl]
  rfl

theorem code_of_fields_le {n a : Nat} (hn : n ≤ 99) (ha : a < Config.ramSize) :
    n * 1000 + a ≤ Config.maxValue := by
  simp only [Config.ramSize, Config.maxValue] at ha ⊢
  omega

/-! ## Holding the code: any number in range is data -/

theorem exec_take_of_cellAt {s : State} {b v : Nat} (hb : b < Config.ramSize)
    (hv : v ≤ Config.maxValue) (hcell : s.mem.cellAt b = v) :
    exec (.take b) s = .next { s with acc := v, ip := s.ip + 1 } := by
  subst hcell
  exact exec_take_eq hb hv

/-- The new memory is named by what it holds at the operand. -/
theorem exec_save_of_acc {s : State} {b v : Nat} (hb : b < Config.ramSize)
    (hv : v ≤ Config.maxValue) (hacc : s.acc = v) :
    ∃ m : Memory, m.cellAt b = v ∧ exec (.save b) s = .next { s with mem := m, ip := s.ip + 1 } := by
  subst hacc
  exact ⟨s.mem.put b s.acc, cellAt_put_same .., exec_save_eq hb hv⟩

/-- The host's read checks the address alone, so whatever the cell holds is what it is told (R134). -/
theorem host_reads_of_cellAt {s : State} {b v : Nat} (hb : b < Config.ramSize)
    (hcell : s.mem.cellAt b = v) (hrun : s.runState ≠ .running)
    (hreq : s.presented = some (.readCell b)) :
    s.hostReply = some (.value v) ∧ step s = .next { s with hostIn := s.hostIn.tail } := by
  obtain ⟨hstep, hreply, _⟩ := hostReadsCell s b hrun hreq
  exact ⟨hcell ▸ hreply hb, hstep⟩

/-! ## The obligation -/

/-- Settles O24. Step 5 of the cycle is where the opcode is looked at: the failure is the effect of the
decoded instruction, in the cycle on the counted state. For every other access the code is a number in
range like any other. -/
theorem unknownOpcodeFailsWhenExecuted : Obligations.UnknownOpcodeFailsWhenExecuted := by
  intro n a s hlow hhigh ha
  have hdec : decode (n * 1000 + a) = .instr (.unknown n a) :=
    decode_of_row n a (unknown_wf hlow hhigh (decide_eq_true ha)) rfl rfl rfl
  have hcode := code_of_fields_le hhigh ha
  refine ⟨hdec, exec_unknown_eq n a s, fun hs => ?executed, fun b hb hcell => ?loaded,
    fun b hb hacc => ?stored, fun b hb hcell hrun hreq => ?listed⟩
  case executed => exact (step_of_executes hs hdec).trans (exec_unknown_eq n a _)
  case loaded => exact exec_take_of_cellAt hb hcode hcell
  case stored => exact exec_save_of_acc hb hcode hacc
  case listed => exact host_reads_of_cellAt hb hcell hrun hreq

end Sys2Proof.Machine
end

section
/-! PROOFS. 70_reset_and_hazards.md R186: the five instructions that write `acc` without reading it. What
overwrites the accumulator, the effect of each from a state whose accumulator was replaced, and the
obligation from these. -/

namespace Sys2Proof.Machine

/-! ## What overwrites the accumulator -/

@[simp] theorem setAcc_setAcc (s : State) (x v : Nat) : (s.setAcc x).setAcc v = s.setAcc v := rfl

@[simp] theorem afterStore_setAcc (s : State) (x : Nat) (k : Kind) (a v : Nat) :
    (s.setAcc x).afterStore k a v = s.afterStore k a v := rfl

/-! ## The effects on a cell that exists: TAKE and TST load, INC, DEC and NULL store -/

/-- TAKE, whatever number the cell holds. -/
theorem exec_take_of_lt {s : State} {a : Nat} (ha : a < Config.ramSize) :
    exec (.take a) s =
      .next ((s.setAcc (dataValue a (s.mem.cellAt a))).advance .take a false) :=
  finishEffect_load_of_lt _ _ ha

theorem exec_take_setAcc {s : State} {a : Nat} (x : Nat) (ha : a < Config.ramSize) :
    exec (.take a) (s.setAcc x) = exec (.take a) s := by
  simp only [exec_take_of_lt ha, State.setAcc_mem, setAcc_setAcc]

/-- The test is of the loaded value, so neither `acc` nor `ip` keeps anything of the old `acc`. -/
theorem exec_tst_setAcc {s : State} {a : Nat} (x : Nat) (ha : a < Config.ramSize) :
    exec (.tst a) (s.setAcc x) = exec (.tst a) s := by
  rw [exec_tst_of_lt ha, exec_tst_of_lt ha]
  rfl

theorem exec_inc_setAcc {s : State} {a : Nat} (x : Nat) (ha : a < Config.ramSize) :
    exec (.inc a) (s.setAcc x) = exec (.inc a) s := by
  simp only [exec_inc_of_lt ha, State.setAcc_mem, afterStore_setAcc]

theorem exec_dec_setAcc {s : State} {a : Nat} (x : Nat) (ha : a < Config.ramSize) :
    exec (.dec a) (s.setAcc x) = exec (.dec a) s := by
  simp only [exec_dec_of_lt ha, State.setAcc_mem, afterStore_setAcc]

theorem exec_null_setAcc {s : State} {a : Nat} (x : Nat) (ha : a < Config.ramSize) :
    exec (.null a) (s.setAcc x) = exec (.null a) s := by
  simp only [exec_null_of_lt ha, afterStore_setAcc]

/-! ## The obligation -/

/-- Settles O30. A well-formed operand is the address of a cell, so no access fails, and what replaces
`acc` comes from the operand cell alone, or is 0 (NULL). -/
theorem oldAccumulatorIsLost : Obligations.OldAccumulatorIsLost := by
  intro i s x hwf hkind
  have ha := operand_lt_of_wf hwf
  cases i with
  | take a => exact exec_take_setAcc x ha
  | tst a => exact exec_tst_setAcc x ha
  | inc a => exact exec_inc_setAcc x ha
  | dec a => exact exec_dec_setAcc x ha
  | null a => exact exec_null_setAcc x ha
  | noop | add | sub | save | jmp | hlt | unknown => simp [Instr.kind] at hkind

end Sys2Proof.Machine
end

section
/-! PROOFS. 30_encoding.md R62 and R66: the round trip in both directions, the one failure of the decoder,
and the sample codes. -/

namespace Sys2Proof.Machine

/-! ## What the decoder yields -/

/-- The opcode map keeps the opcode (R63). -/
theorem opcode_kindOf_instr (n a : Nat) : ((kindOf n).instr a).opcode = n := by
  unfold kindOf
  split <;> rfl

/-- The map at an opcode a code can have, with the digits of an operand (R60, R64). -/
theorem wf_kindOf_instr {n a : Nat} (hn : n ≤ 99) (ha : operandOk a = true) :
    ((kindOf n).instr a).wf = true := by
  rcases Nat.lt_or_ge n 11 with hdefined | hundefined
  · interval_cases n <;> exact ha
  · rw [kindOf_unknown hundefined]
    exact unknown_wf hundefined hn ha

/-- Decoding answers an instruction for the codes in range, and it is the one of the decimal fields. -/
theorem decode_eq_instr_iff {code : Nat} {i : Instr} :
    decode code = .instr i ↔
      code ≤ Config.maxValue ∧ i = (kindOf (opcodeOf code)).instr (operandOf code) := by
  unfold decode
  split <;> simp [*, eq_comm]

theorem code_le_of_decode {code : Nat} {i : Instr} (h : decode code = .instr i) :
    code ≤ Config.maxValue :=
  (decode_eq_instr_iff.mp h).1

theorem opcode_of_decode {code : Nat} {i : Instr} (h : decode code = .instr i) :
    i.opcode = opcodeOf code := by
  obtain ⟨_, rfl⟩ := decode_eq_instr_iff.mp h
  exact opcode_kindOf_instr ..

theorem operand_of_decode {code : Nat} {i : Instr} (h : decode code = .instr i) :
    i.operand = operandOf code := by
  obtain ⟨_, rfl⟩ := decode_eq_instr_iff.mp h
  exact Kind.instr_operand ..

theorem wf_of_decode {code : Nat} {i : Instr} (h : decode code = .instr i) : i.wf = true := by
  obtain ⟨hcode, rfl⟩ := decode_eq_instr_iff.mp h
  obtain ⟨hopcode, hoperand, _⟩ := decimal_fields hcode
  exact wf_kindOf_instr hopcode (decide_eq_true (Nat.lt_succ_of_le hoperand))

/-- The converse of the round trip (R66). -/
theorem encode_of_decode {code : Nat} {i : Instr} (h : decode code = .instr i) :
    encode i = code := by
  obtain ⟨_, _, hsplit⟩ := decimal_fields (code_le_of_decode h)
  rw [encode_of_fields i (opcode_of_decode h) (operand_of_decode h)]
  omega

/-! ## The obligations -/

/-- Settles O3. The fields of the code are the instruction's own, and the map inverts its opcode. -/
theorem decodeOfEncodeIsIdentity : Obligations.DecodeOfEncodeIsIdentity := by
  intro i hwf
  obtain ⟨hcode, _⟩ := encode_fields i hwf
  exact ⟨hcode, decode_encode hwf⟩

/-- Settles O4. Uniqueness is the round trip from the other side: an instruction with this code is what
the code decodes to. -/
theorem encodeOfDecodeIsIdentity : Obligations.EncodeOfDecodeIsIdentity := by
  intro code hcode
  have hdec := decode_of_le hcode
  refine ⟨_, hdec, wf_of_decode hdec, encode_of_decode hdec, fun j hwf hencode => ?_⟩
  have hj : decode code = .instr j := hencode ▸ decode_encode hwf
  cases hj.symm.trans hdec
  rfl

/-- Settles O7. The two answers of the decoder are the two sides of its range check. -/
theorem decodeFailsOnlyOutOfRange : Obligations.DecodeFailsOnlyOutOfRange := by
  intro code bad
  constructor
  · intro h
    rcases Nat.lt_or_ge Config.maxValue code with hgt | hle
    · cases (decode_of_gt hgt).symm.trans h
      exact ⟨hgt, rfl⟩
    · cases (decode_of_le hle).symm.trans h
  · rintro ⟨hgt, rfl⟩
    exact decode_of_gt hgt

/-- Settles O8, row by row of the spec's table: each code is evaluated. -/
theorem decodeOfSpecSampleCodes : Obligations.DecodeOfSpecSampleCodes := by
  unfold Obligations.DecodeOfSpecSampleCodes
  decide

end Sys2Proof.Machine
end

section
/-! PROOFS. 70_reset_and_hazards.md R180, 20_memory.md R41 to R43 and 42_arithmetic.md R110: the state
after reset, the laws of the memory, and those of the saturation ALU. -/

namespace Sys2Proof.Machine

/-! ## Reset -/

/-- Settles O1. An empty memory reads 0 everywhere (R29); the other fields are written in the state. -/
theorem resetStateIsPowerOnReset : Obligations.ResetStateIsPowerOnReset :=
  ⟨fun _ => rfl, rfl, rfl, rfl, rfl, rfl, rfl, rfl, rfl⟩

theorem reset_inRange : State.reset.InRange where
  memWf := rfl
  memInRange := rfl
  accInRange := Nat.zero_le _
  ipInRange := Nat.zero_le _

/-- Settles O2. The registers are 0 and the memory lists no cell; `Idle` asks for no failure recorded. -/
theorem resetStateIsSound : Obligations.ResetStateIsSound :=
  ⟨reset_inRange, (rfl : State.reset.failCode = 0)⟩

/-! ## Memory -/

theorem memRead_put_other (m : Memory) {a b : Nat} (v : Nat) (h : b ≠ a) :
    memRead (m.put a v) b = memRead m b := by
  unfold memRead
  rw [cellAt_put_other m v h]

/-- Settles O9. The checks of the write pass, and what it makes is `put`, whose reads are known. -/
theorem readAfterWrite : Obligations.ReadAfterWrite := by
  intro m a v ha hv
  exact ⟨m.put a v, memWrite_ok_iff.mpr ⟨ha, hv, rfl⟩,
    memRead_ok_iff.mpr ⟨ha, (cellAt_put_same m a v).symm⟩, fun b hb => memRead_put_other m v hb⟩

/-- Settles O10. Both accesses check the address first (D11). -/
theorem memoryFailureLaws : Obligations.MemoryFailureLaws := by
  intro m a v
  refine ⟨fun ha => ⟨memRead_error_iff.mpr ⟨ha, rfl⟩, memWrite_error_iff.mpr (.inl ⟨ha, rfl⟩)⟩,
    fun ha hv => memWrite_error_iff.mpr (.inr ⟨ha, hv, rfl⟩)⟩

/-- An address below the first that may be listed reads as an unlisted cell. -/
theorem lookupCell_of_lt {low a : Nat} {l : List (Nat × Nat)} (h : canonicalFrom low l = true)
    (ha : a < low) : lookupCell l a = unlistedCell := by
  induction l generalizing low with
  | nil => rfl
  | cons c rest ih =>
    simp only [canonicalFrom, Bool.and_eq_true, decide_eq_true_eq] at h
    obtain ⟨⟨⟨hlow, _⟩, _⟩, hrest⟩ := h
    rw [lookupCell, if_neg (by omega)]
    exact ih hrest (by omega)

/-- What the first entry of a canonical list says: it is read at its address, and the list is canonical
from that address on. -/
theorem canonicalFrom_cons {low b w : Nat} {rest : List (Nat × Nat)}
    (h : canonicalFrom low ((b, w) :: rest) = true) :
    lookupCell ((b, w) :: rest) b = w ∧ w ≠ unlistedCell ∧ canonicalFrom (b + 1) rest = true ∧
      canonicalFrom b ((b, w) :: rest) = true := by
  simp only [canonicalFrom, Bool.and_eq_true, decide_eq_true_eq] at h ⊢
  obtain ⟨⟨⟨_, hb⟩, hw⟩, hrest⟩ := h
  exact ⟨if_pos rfl, hw, hrest, ⟨⟨le_rfl, hb⟩, hw⟩, hrest⟩

/-- A canonical list that reads like one with a first entry has a first entry too, at an address no
larger: below its own first entry it would read as unlisted. -/
theorem first_address_le {low b w : Nat} {rest l : List (Nat × Nat)}
    (h : canonicalFrom low ((b, w) :: rest) = true) (hl : canonicalFrom low l = true)
    (hread : ∀ a, lookupCell ((b, w) :: rest) a = lookupCell l a) :
    ∃ c v l', l = (c, v) :: l' ∧ c ≤ b := by
  obtain ⟨hb, hw, _⟩ := canonicalFrom_cons h
  cases l with
  | nil => exact absurd (hb.symm.trans (hread b)) hw
  | cons d l' =>
    obtain ⟨c, v⟩ := d
    refine ⟨c, v, l', rfl, ?_⟩
    by_contra hlt
    obtain ⟨_, _, _, hc⟩ := canonicalFrom_cons hl
    exact hw (hb.symm.trans ((hread b).trans (lookupCell_of_lt hc (by omega))))

/-- Canonical lists that read alike are equal: their first entries agree, and so do the rests, which
read as unlisted up to those entries. -/
theorem canonicalFrom_ext {low : Nat} {l l' : List (Nat × Nat)} (h : canonicalFrom low l = true)
    (h' : canonicalFrom low l' = true) (hread : ∀ a, lookupCell l a = lookupCell l' a) : l = l' := by
  induction l generalizing low l' with
  | nil =>
    cases l' with
    | nil => rfl
    | cons c rest' =>
      obtain ⟨_, _, _, hnil, _⟩ := first_address_le h' h fun a => (hread a).symm
      cases hnil
  | cons c rest ih =>
    obtain ⟨b, w⟩ := c
    obtain ⟨b', w', rest', rfl, hle⟩ := first_address_le h h' hread
    obtain ⟨_, _, _, heq, hge⟩ := first_address_le h' h fun a => (hread a).symm
    cases heq
    obtain rfl : b' = b := by omega
    obtain ⟨hw, _, hrest, _⟩ := canonicalFrom_cons h
    obtain ⟨hw', _, hrest', _⟩ := canonicalFrom_cons h'
    obtain rfl : w = w' := hw.symm.trans ((hread b').trans hw')
    have htail : ∀ a, lookupCell rest a = lookupCell rest' a := by
      intro a
      by_cases ha : a = b'
      · subst ha
        rw [lookupCell_of_lt hrest (Nat.lt_succ_self _), lookupCell_of_lt hrest' (Nat.lt_succ_self _)]
      · simpa only [lookupCell, if_neg ha] using hread a
    rw [ih hrest hrest' htail]

/-- Settles O11. A memory is its list of entries. -/
theorem canonicalMemoryIsDetermined : Obligations.CanonicalMemoryIsDetermined := by
  intro m m' hwf hwf' hread
  cases m
  cases m'
  exact congrArg Memory.mk (canonicalFrom_ext hwf hwf' hread)

/-! ## Saturation ALU -/

theorem satAdd_mono {c a : Nat} (b : Nat) (h : c ≤ a) : satAdd c b ≤ satAdd a b :=
  min_le_min_left _ (Nat.add_le_add_right h b)

theorem satSub_mono {c a : Nat} (b : Nat) (h : c ≤ a) : satSub c b ≤ satSub a b := by
  rw [satSub_eq, satSub_eq]
  exact Nat.sub_le_sub_right h b

theorem satAdd_comm (a b : Nat) : satAdd a b = satAdd b a :=
  congrArg (min _) (Nat.add_comm a b)

/-- Settles O12. On natural numbers the two operations are the minimum with 99999 and the truncated
difference, so the laws that name a value are linear arithmetic. -/
theorem saturationLaws : Obligations.SaturationLaws := by
  intro a b ha hb
  refine ⟨satAdd_le a b, satSub_le b ha, ?addExact, ?addClamps, ?subExact, ?subClamps,
    satAdd_comm a b, ?addZero, ?subZero, ?subSelf, ?maxAdd, ?zeroSub,
    fun c hc => ⟨satAdd_mono b hc, satSub_mono b hc⟩⟩
  all_goals
    simp only [satAdd_eq, satSub_eq, Config.maxValue] at *
    omega

end Sys2Proof.Machine
end

section
/-! PROOFS. 40_cycle_fsm.md R86, R88 and R89: what step 5 does, once for all instructions. The failure an
instruction meets, the state after its effect, and `exec` from these two. -/

namespace Sys2Proof.Machine

/-! ## The failure of an effect -/

/-- The failure that the effect of an instruction raises with `acc` in the accumulator (R86, R89). -/
def effectFailure (i : Instr) (acc : Nat) : Option Failure :=
  match i with
  | .noop _ | .jmp _ | .hlt _ => none
  | .take a | .add a | .sub a | .tst a | .inc a | .dec a | .null a =>
    if Config.ramSize ≤ a then some .outOfBounds else none
  | .save a =>
    if Config.ramSize ≤ a then some .outOfBounds
    else if Config.maxValue < acc then some .valueOutOfRange
    else none
  | .unknown _ _ => some .illegalInstruction

theorem addressFailure_iff {a : Nat} {f : Failure} :
    (if Config.ramSize ≤ a then some Failure.outOfBounds else none) = some f ↔
      Config.ramSize ≤ a ∧ f = .outOfBounds := by
  split <;> simp [*, eq_comm]

theorem addressFailure_eq_none_iff {a : Nat} :
    (if Config.ramSize ≤ a then some Failure.outOfBounds else none) = none ↔ a < Config.ramSize := by
  simp

theorem storeFailure_iff {a acc : Nat} {f : Failure} :
    (if Config.ramSize ≤ a then some Failure.outOfBounds
      else if Config.maxValue < acc then some .valueOutOfRange else none) = some f ↔
      (Config.ramSize ≤ a ∧ f = .outOfBounds) ∨
        (a < Config.ramSize ∧ Config.maxValue < acc ∧ f = .valueOutOfRange) := by
  grind

theorem storeFailure_eq_none_iff {a acc : Nat} :
    (if Config.ramSize ≤ a then some Failure.outOfBounds
      else if Config.maxValue < acc then some .valueOutOfRange else none) = none ↔
      a < Config.ramSize ∧ acc ≤ Config.maxValue := by
  grind

/-- Everything the effect of an instruction with a cell's address as its operand can raise. -/
theorem effectFailure_of_lt {i : Instr} {acc : Nat} {f : Failure} (ha : i.operand < Config.ramSize)
    (h : effectFailure i acc = some f) :
    (f = .valueOutOfRange ∧ i.kind = .save ∧ Config.maxValue < acc) ∨
      (f = .illegalInstruction ∧ i.kind = .unknown i.opcode) := by
  cases i with
  | noop a | jmp a | hlt a => cases h
  | take a | add a | sub a | tst a | inc a | dec a | null a =>
    obtain ⟨hge, _⟩ := addressFailure_iff.mp h
    exact absurd ha (Nat.not_lt.mpr hge)
  | save a =>
    rcases storeFailure_iff.mp h with ⟨hge, _⟩ | ⟨_, hacc, hf⟩
    · exact absurd ha (Nat.not_lt.mpr hge)
    · exact .inl ⟨hf, rfl, hacc⟩
  | unknown n a =>
    cases h
    exact .inr ⟨rfl, rfl⟩

/-- An instruction whose effect raises nothing has a mnemonic. -/
theorem kind_ne_unknown_of_effectFailure {i : Instr} {acc : Nat} (h : effectFailure i acc = none)
    (n : Nat) : i.kind ≠ .unknown n := by
  cases i with
  | unknown => cases h
  | _ => simp [Instr.kind]

/-! ## The state after an effect -/

/-- What the effect of a kind leaves in `acc`, from the old `acc` and the value of the operand cell
(R100 to R102, R111 to R114, R120 to R123). -/
def newAcc (k : Kind) (acc v : Nat) : Nat :=
  match k with
  | .take | .tst => v
  | .add => satAdd acc v
  | .sub => satSub acc v
  | .inc => satAdd v 1
  | .dec => satSub v 1
  | .null => 0
  | .noop | .save | .jmp | .hlt | .unknown _ => acc

/-- The value an instruction gets from its operand cell. -/
def State.operandValue (s : State) (i : Instr) : Nat :=
  dataValue i.operand (s.mem.cellAt i.operand)

/-- `acc` after the effect of an instruction. -/
def State.effectAcc (s : State) (i : Instr) : Nat := newAcc i.kind s.acc (s.operandValue i)

/-- The state after the effect of an instruction whose accesses pass. The program-counter logic looks at
the flag for TST only (R125). -/
def State.afterEffect (s : State) (i : Instr) : State :=
  { s with
    mem := if Kind.writesCell i.kind then s.mem.put i.operand (s.effectAcc i) else s.mem
    acc := s.effectAcc i
    ip := nextIp i.kind s.ip i.operand (isZero (s.operandValue i))
    runState := if i.kind = .hlt then .halted else s.runState }

section Fields
variable (s : State) (i : Instr)

@[simp] theorem afterEffect_mem : (s.afterEffect i).mem =
    if Kind.writesCell i.kind then s.mem.put i.operand (s.effectAcc i) else s.mem := rfl
@[simp] theorem afterEffect_acc : (s.afterEffect i).acc = s.effectAcc i := rfl
@[simp] theorem afterEffect_ip : (s.afterEffect i).ip =
    nextIp i.kind s.ip i.operand (isZero (s.operandValue i)) := rfl
@[simp] theorem afterEffect_runState : (s.afterEffect i).runState =
    if i.kind = .hlt then .halted else s.runState := rfl
@[simp] theorem afterEffect_opCount : (s.afterEffect i).opCount = s.opCount := rfl
@[simp] theorem afterEffect_failCode : (s.afterEffect i).failCode = s.failCode := rfl
@[simp] theorem afterEffect_maxOps : (s.afterEffect i).maxOps = s.maxOps := rfl
@[simp] theorem afterEffect_hostIn : (s.afterEffect i).hostIn = s.hostIn := rfl

end Fields

theorem newAcc_le {k : Kind} {acc v : Nat} (hacc : acc ≤ Config.maxValue)
    (hv : v ≤ Config.maxValue) : newAcc k acc v ≤ Config.maxValue := by
  cases k with
  | take | tst => exact hv
  | add | inc => exact satAdd_le ..
  | sub => exact satSub_le _ hacc
  | dec => exact satSub_le _ hv
  | null => exact Nat.zero_le _
  | noop | save | jmp | hlt | unknown => exact hacc

theorem operandValue_le (s : State) (i : Instr) : s.operandValue i ≤ Config.maxValue :=
  dataValue_le ..

theorem operandValue_of_le {s : State} {i : Instr} (h : s.mem.cellAt i.operand ≤ Config.maxValue) :
    s.operandValue i = s.mem.cellAt i.operand :=
  dataValue_of_le h

/-- The kinds of the write column of R56. -/
theorem writesCell_iff (k : Kind) :
    Kind.writesCell k = true ↔ k ∈ [Kind.save, .inc, .dec, .null] := by
  cases k <;> simp [Kind.writesCell]

/-- The kinds of the read column of R56: only for these does the operand cell have a part in `acc`. -/
theorem newAcc_congr {k : Kind} {acc v w : Nat}
    (h : k ∈ [Kind.take, .add, .sub, .tst, .inc, .dec] → v = w) : newAcc k acc v = newAcc k acc w := by
  cases k with
  | take | add | sub | tst | inc | dec => rw [h (by simp)]
  | noop | save | jmp | null | hlt | unknown => rfl

theorem nextIp_congr {k : Kind} {ip a v w : Nat}
    (h : k ∈ [Kind.take, .add, .sub, .tst, .inc, .dec] → v = w) :
    nextIp k ip a (isZero v) = nextIp k ip a (isZero w) := by
  cases k with
  | tst => rw [h (by simp)]
  | _ => rfl

/-! ## `exec` from the two -/

/-- An effect that ends in one of its accesses. -/
theorem finishEffect_map_error {α : Type} {access : Except Failure α} {f : Failure} (s : State)
    (code : Nat) (g : α → State) (h : access = .error f) :
    finishEffect s code (access.map g) = .next (s.raise f (some code)) := by
  subst h
  rfl

theorem loadOperand_of_ge {s : State} {a : Nat} (ha : Config.ramSize ≤ a) :
    loadOperand s a = .error .outOfBounds := by
  rw [loadOperand_eq, if_neg (by omega)]

theorem storeOperand_of_ge {s : State} {a : Nat} (v : Nat) (ha : Config.ramSize ≤ a) :
    storeOperand s a v = .error .outOfBounds := by
  rw [storeOperand_eq, if_pos ha]

theorem storeOperand_of_gt {s : State} {a v : Nat} (ha : a < Config.ramSize)
    (hv : Config.maxValue < v) : storeOperand s a v = .error .valueOutOfRange := by
  rw [storeOperand_eq, if_neg (by omega), if_pos hv]

/-- INC and DEC read before they store, so a bad address ends them at the read. -/
theorem updateCell_of_ge {s : State} {a : Nat} (k : Kind) (f : Nat → Nat)
    (ha : Config.ramSize ≤ a) : updateCell s a k f = .error .outOfBounds := by
  rw [updateCell, loadOperand_of_ge ha]
  rfl

/-- An effect that fails is not applied (R90). -/
theorem exec_of_failure {i : Instr} {s : State} {f : Failure} (h : effectFailure i s.acc = some f) :
    exec i s = .next (s.raise f (some (encode i))) := by
  cases i with
  | noop a | jmp a | hlt a => cases h
  | unknown n a =>
    cases h
    rfl
  | take a | add a | sub a | tst a =>
    obtain ⟨ha, rfl⟩ := addressFailure_iff.mp h
    exact finishEffect_map_error _ _ _ (loadOperand_of_ge ha)
  | inc a | dec a =>
    obtain ⟨ha, rfl⟩ := addressFailure_iff.mp h
    exact congrArg (finishEffect s _) (updateCell_of_ge _ _ ha)
  | null a =>
    obtain ⟨ha, rfl⟩ := addressFailure_iff.mp h
    exact finishEffect_map_error _ _ _ (storeOperand_of_ge _ ha)
  | save a =>
    rcases storeFailure_iff.mp h with ⟨ha, rfl⟩ | ⟨ha, hacc, rfl⟩
    · exact finishEffect_map_error _ _ _ (storeOperand_of_ge _ ha)
    · exact finishEffect_map_error _ _ _ (storeOperand_of_gt ha hacc)

theorem exec_of_no_failure {i : Instr} {s : State} (h : effectFailure i s.acc = none) :
    exec i s = .next (s.afterEffect i) := by
  cases i with
  | noop a | jmp a | hlt a => rfl
  | unknown n a => cases h
  | take a | add a | sub a | tst a =>
    exact finishEffect_load_of_lt _ _ (addressFailure_eq_none_iff.mp h)
  | inc a => exact exec_inc_of_lt (addressFailure_eq_none_iff.mp h)
  | dec a => exact exec_dec_of_lt (addressFailure_eq_none_iff.mp h)
  | null a => exact exec_null_of_lt (addressFailure_eq_none_iff.mp h)
  | save a =>
    obtain ⟨ha, hacc⟩ := storeFailure_eq_none_iff.mp h
    exact exec_save_of_le ha hacc

/-- Everything step 5 can do: raise the effect's failure, or apply the effect. -/
theorem exec_cases {i : Instr} {s t : State} (h : exec i s = .next t) :
    (∃ f, effectFailure i s.acc = some f ∧ t = s.raise f (some (encode i))) ∨
      (effectFailure i s.acc = none ∧ t = s.afterEffect i) := by
  cases hf : effectFailure i s.acc with
  | none =>
    cases h.symm.trans (exec_of_no_failure hf)
    exact .inr ⟨rfl, rfl⟩
  | some f =>
    cases h.symm.trans (exec_of_failure hf)
    exact .inl ⟨f, rfl, rfl⟩

/-- From a running state an effect that passes its accesses records no failure. -/
theorem afterEffect_runState_ne_failed {s : State} (hrun : s.runState = .running) (i : Instr)
    (f : Failure) : (s.afterEffect i).runState ≠ .failed f := by
  rw [afterEffect_runState, hrun]
  split <;> simp

theorem isFailed_raise (s : State) (f : Failure) (c : Nat) : (s.raise f (some c)).isFailed = true :=
  rfl

theorem afterEffect_isFailed {s : State} (hrun : s.runState = .running) (i : Instr) :
    (s.afterEffect i).isFailed = false := by
  rw [← Bool.not_eq_true, isFailed_iff]
  exact fun ⟨f, hf⟩ => afterEffect_runState_ne_failed hrun i f hf

end Sys2Proof.Machine
end

section
/-! PROOFS. The obligations about one instruction, and about every instruction: HLT (43_control.md R123),
reads of cells above 99999 (93_implementation_defined.md U4), the failing accesses (40_cycle_fsm.md R89),
the next `ip` (43_control.md R125), the read and write columns (20_memory.md R56), the control state
(10_state.md R24 to R28). -/

namespace Sys2Proof.Machine

/-! ## HLT, and the reads of cells above 99999 -/

theorem exec_hlt_eq (a : Nat) (s : State) :
    exec (.hlt a) s = .next { s with runState := .halted } := rfl

/-- Settles O23. HLT accesses no memory, and the program-counter logic leaves `ip` (D8). -/
theorem hltHalts : Obligations.HltHalts := by
  intro a s ha
  have hdec : decode (10000 + a) = .instr (.hlt a) :=
    decode_of_row 10 a (decide_eq_true ha) rfl rfl (by omega)
  exact ⟨hdec, exec_hlt_eq a s, cycleGives_of_exec hdec (exec_hlt_eq a _)⟩

/-- Settles O25. The one value is `dataValue` of the cell: the six effects use it whatever number the
cell holds, so that the cell is above 99999 has no part. -/
theorem readOfOutOfRangeCellCompletes : Obligations.ReadOfOutOfRangeCellCompletes := by
  intro a s ha _
  exact ⟨dataValue a (s.mem.cellAt a), dataValue_le .., exec_take_of_lt ha, exec_add_of_lt ha,
    exec_sub_of_lt ha, exec_tst_of_lt ha, exec_inc_of_lt ha, exec_dec_of_lt ha⟩

/-! ## The failing accesses -/

theorem effectFailure_of_operand_ge {a acc : Nat} {i : Instr} (ha : Config.ramSize ≤ a)
    (h : i ∈ [Instr.take a, .add a, .sub a, .tst a, .inc a, .dec a, .save a, .null a]) :
    effectFailure i acc = some .outOfBounds := by
  simp only [List.mem_cons, List.not_mem_nil, or_false] at h
  rcases h with rfl | rfl | rfl | rfl | rfl | rfl | rfl | rfl <;> exact if_pos ha

/-- Settles O26. The failing access is the effect's failure, and a failing effect is not applied. -/
theorem accessFailuresAreRaisedWhole : Obligations.AccessFailuresAreRaisedWhole := by
  intro a s
  refine ⟨fun ha i hi => exec_of_failure (effectFailure_of_operand_ge ha hi), fun ha hacc => ?_⟩
  exact exec_of_failure (i := .save a) (storeFailure_iff.mpr (.inr ⟨ha, hacc, rfl⟩))

/-! ## The next `ip` -/

/-- The program-counter logic of the kinds that have a mnemonic, as one chain (R125). -/
theorem nextIp_eq {k : Kind} (hdefined : ∀ n, k ≠ .unknown n) (ip a v : Nat) :
    nextIp k ip a (isZero v) =
      if k = .jmp then a
      else if k = .tst ∧ v = 0 then ip + 2
      else if k = .hlt then ip
      else ip + 1 := by
  cases k with
  | tst => simp [nextIp_tst_isZero]
  | unknown n => exact absurd rfl (hdefined n)
  | _ => rfl

/-- Settles O27. A failure leaves `ip`; an effect that is applied belongs to a kind with a mnemonic, and
the value tested is what the operand cell holds. -/
theorem nextIpIsThatOfPcLogic : Obligations.NextIpIsThatOfPcLogic := by
  intro i s t _ hcell hrun hexec
  refine ⟨?_, failsOffEnd_of_ip_ge⟩
  rcases exec_cases hexec with ⟨f, _, rfl⟩ | ⟨hnone, rfl⟩
  · rw [if_pos (isFailed_raise ..)]
    rfl
  · rw [if_neg (by simp [afterEffect_isFailed hrun]), afterEffect_ip, operandValue_of_le hcell,
      nextIp_eq (kind_ne_unknown_of_effectFailure hnone)]

/-! ## The write and read columns -/

/-- HLT, the one instruction that changes `run_state` without a failure, writes no cell. -/
theorem writesCell_of_hlt {k : Kind} (h : k = .hlt) : Kind.writesCell k = false := by
  subst h
  rfl

/-- Settles O28. The effect puts the new `acc` at the operand for the storing kinds, and keeps memory for
the others. -/
theorem onlyOperandCellIsWritten : Obligations.OnlyOperandCellIsWritten := by
  intro i s t _ hexec
  rcases exec_cases hexec with ⟨f, _, rfl⟩ | ⟨_, rfl⟩
  · exact ⟨.inl rfl, fun _ => rfl⟩
  · cases hw : Kind.writesCell i.kind with
    | false => simp [hw]
    | true =>
      refine ⟨.inr ⟨(writesCell_iff _).mp hw, by simp [hw], fun b hb => ?_⟩, fun hchanged => ?_⟩
      · simp [hw, cellAt_put_other _ _ hb]
      · have hhlt : i.kind ≠ .hlt := fun hhlt => by simp [writesCell_of_hlt hhlt] at hw
        simp [hhlt] at hchanged

/-- The effect on another memory that agrees at the operand, for a reading kind: all but memory is the
same. -/
theorem afterEffect_with_mem {s : State} {i : Instr} {m : Memory}
    (h : i.kind ∈ [Kind.take, .add, .sub, .tst, .inc, .dec] →
      m.cellAt i.operand = s.mem.cellAt i.operand) :
    { (State.afterEffect { s with mem := m } i) with mem := (s.afterEffect i).mem } =
      s.afterEffect i := by
  have hvalue : i.kind ∈ [Kind.take, .add, .sub, .tst, .inc, .dec] →
      State.operandValue { s with mem := m } i = s.operandValue i :=
    fun hk => congrArg (dataValue i.operand) (h hk)
  exact State.ext rfl (newAcc_congr hvalue) (nextIp_congr hvalue) rfl rfl rfl rfl rfl

/-- Settles O29. The failure of an effect does not look at memory; the effect looks at the value of the
operand cell, and only for the reading kinds. -/
theorem onlyOperandCellIsRead : Obligations.OnlyOperandCellIsRead := by
  intro i s t m _ hexec hagree
  rcases exec_cases hexec with ⟨f, hf, rfl⟩ | ⟨hnone, rfl⟩
  · exact ⟨_, exec_of_failure (s := { s with mem := m }) hf, rfl, fun _ => .inr rfl⟩
  · have hsame := afterEffect_with_mem hagree
    refine ⟨_, exec_of_no_failure (s := { s with mem := m }) hnone, hsame, fun hk => .inl ?_⟩
    have hacc : State.effectAcc { s with mem := m } i = s.effectAcc i := congrArg State.acc hsame
    simp [(writesCell_iff _).mpr hk, hacc]

/-! ## The control state -/

/-- Settles O31. Neither the failure of an effect nor the effect looks at the counter, the limit or the
record. -/
theorem controlStateIsOutOfReach : Obligations.ControlStateIsOutOfReach := by
  intro i s t hexec
  rcases exec_cases hexec with ⟨f, hf, rfl⟩ | ⟨hnone, rfl⟩
  · refine ⟨rfl, rfl, rfl, .inr (.inr rfl), fun n c limit => ?_⟩
    exact ⟨_, exec_of_failure (s := { s with opCount := n, failCode := c, maxOps := limit }) hf,
      rfl, rfl, rfl, rfl⟩
  · refine ⟨rfl, rfl, rfl, ?_, fun n c limit => ?_⟩
    · by_cases hhlt : i.kind = .hlt
      · exact .inr (.inl ⟨hhlt, by simp [hhlt]⟩)
      · exact .inl (by simp [hhlt])
    · exact ⟨_, exec_of_no_failure (s := { s with opCount := n, failCode := c, maxOps := limit })
        hnone, rfl, rfl, rfl, rfl⟩

/-- Settles O37. A failure is a next state (R157), so neither a step nor an effect ends in another way. -/
theorem everyStepHasNextState : Obligations.EveryStepHasNextState :=
  ⟨step_next, exec_next⟩

end Sys2Proof.Machine
end

section
/-! PROOFS. 40_cycle_fsm.md R80 to R93 and 60_exceptions.md R150 to R157: the whole cycle. Everything a
cycle can end in, as one inductive relation; the operation limit, precision and context of the failures,
the operation counter, the transitions of `run_state`. -/

namespace Sys2Proof.Machine

/-! ## Everything a cycle can end in -/

/-- The state after the cycle from `s`, with the checks that passed before it (R81 to R89). -/
inductive CycleResult (s : State) : State → Prop
  /-- step 1 fails (R82) -/
  | outsideMemory (hip : Config.ramSize ≤ s.ip) :
    CycleResult s (s.takeInput.raise .outOfBounds none)
  /-- step 3 fails (R84) -/
  | limitReached (hip : s.ip < Config.ramSize) (hlimit : s.count.limitReached = true) :
    CycleResult s (s.takeInput.count.raise .operationLimitExceeded (some (s.mem.cellAt s.ip)))
  /-- step 4 fails (R85) -/
  | codeTooLarge (hip : s.ip < Config.ramSize) (hlimit : s.count.limitReached = false)
    (hcode : Config.maxValue < s.mem.cellAt s.ip) :
    CycleResult s (s.takeInput.count.raise .valueOutOfRange (some (s.mem.cellAt s.ip)))
  /-- step 5 fails (R86, R89) -/
  | effectFailed {i : Instr} {f : Failure} (hip : s.ip < Config.ramSize)
    (hlimit : s.count.limitReached = false) (hdec : decode (s.mem.cellAt s.ip) = .instr i)
    (hfailure : effectFailure i s.acc = some f) :
    CycleResult s (s.takeInput.count.raise f (some (s.mem.cellAt s.ip)))
  /-- the instruction is applied -/
  | applied {i : Instr} (hip : s.ip < Config.ramSize) (hlimit : s.count.limitReached = false)
    (hdec : decode (s.mem.cellAt s.ip) = .instr i) (hnone : effectFailure i s.acc = none) :
    CycleResult s (s.takeInput.count.afterEffect i)

theorem cycleResult_of_step {s t : State} (hturn : s.EngineTurn) (hstep : step s = .next t) :
    CycleResult s t := by
  rcases fetch_cases s with ⟨hip, _⟩ | ⟨hip, hlimit, _⟩ | ⟨hip, hlimit, hcode, _⟩ |
    ⟨hip, hlimit, _, i, hdec, _⟩
  · cases hstep.symm.trans (step_of_ip_ge hturn hip)
    exact .outsideMemory hip
  · cases hstep.symm.trans (step_of_limitReached hturn hip hlimit)
    exact .limitReached hip hlimit
  · cases hstep.symm.trans (step_of_code_gt ⟨hturn, hip, hlimit, rfl⟩ hcode)
    exact .codeTooLarge hip hlimit hcode
  · have hexec : exec i s.takeInput.count = .next t :=
      (step_of_executes ⟨hturn, hip, hlimit, rfl⟩ hdec).symm.trans hstep
    rcases exec_cases hexec with ⟨f, hfailure, rfl⟩ | ⟨hnone, rfl⟩
    · rw [encode_of_decode hdec]
      exact .effectFailed hip hlimit hdec hfailure
    · exact .applied hip hlimit hdec hnone

/-- The step of a running machine is a reset or a cycle. -/
theorem step_of_running {s t : State} (hrun : s.runState = .running) (hstep : step s = .next t) :
    (s.presented = some .powerOnReset ∧ t = s.takeInput.powerOn) ∨
      (s.EngineTurn ∧ CycleResult s t) := by
  by_cases hreset : s.presented = some .powerOnReset
  · rcases step_cases s with ⟨⟨_, hne⟩, _⟩ | ⟨hstopped, _⟩ | ⟨r, hr, _, hserve⟩
    · exact absurd hreset hne
    · exact absurd hrun hstopped
    · cases hreset.symm.trans hr
      cases hstep.symm.trans hserve
      exact .inl ⟨hreset, rfl⟩
  · exact .inr ⟨⟨hrun, hreset⟩, cycleResult_of_step ⟨hrun, hreset⟩ hstep⟩

/-! ## The failing cycle -/

/-- A cycle that fails raises its failure on the state with the fetch counted, or at step 1 on the state
in which nothing was fetched (R90, R157). -/
theorem CycleResult.failed {s t : State} {f : Failure} (h : CycleResult s t)
    (hrun : s.runState = .running) (hf : t.runState = .failed f) :
    (f = .outOfBounds ∧ Config.ramSize ≤ s.ip ∧ t = s.takeInput.raise f none) ∨
      (f ≠ .outOfBounds ∧ s.ip < Config.ramSize ∧
        t = s.takeInput.count.raise f (some (s.mem.cellAt s.ip))) := by
  cases h with
  | outsideMemory hip =>
    cases hf
    exact .inl ⟨rfl, hip, rfl⟩
  | limitReached hip _ | codeTooLarge hip _ _ =>
    cases hf
    exact .inr ⟨by simp, hip, rfl⟩
  | effectFailed hip _ hdec hfailure =>
    cases hf
    rcases effectFailure_of_lt (decode_operand_lt hdec) hfailure with ⟨rfl, _⟩ | ⟨rfl, _⟩ <;>
      exact .inr ⟨by simp, hip, rfl⟩
  | applied _ _ _ _ => exact absurd hf (afterEffect_runState_ne_failed hrun _ f)

/-- A running machine fails in a cycle. -/
theorem failed_cases {s t : State} {f : Failure} (hrun : s.runState = .running)
    (hstep : step s = .next t) (hf : t.runState = .failed f) :
    (f = .outOfBounds ∧ Config.ramSize ≤ s.ip ∧ t = s.takeInput.raise f none) ∨
      (f ≠ .outOfBounds ∧ s.ip < Config.ramSize ∧
        t = s.takeInput.count.raise f (some (s.mem.cellAt s.ip))) := by
  rcases step_of_running hrun hstep with ⟨_, rfl⟩ | ⟨_, hresult⟩
  · cases hf
  · exact hresult.failed hrun hf

/-- The limit is reached only at step 3. -/
theorem CycleResult.limitReached_of_failed {s t : State} (h : CycleResult s t)
    (hrun : s.runState = .running) (hf : t.runState = .failed .operationLimitExceeded) :
    s.count.limitReached = true := by
  cases h with
  | limitReached _ hlimit => exact hlimit
  | outsideMemory _ | codeTooLarge _ _ _ => cases hf
  | effectFailed _ _ hdec hfailure =>
    cases hf
    rcases effectFailure_of_lt (decode_operand_lt hdec) hfailure with ⟨hf, _⟩ | ⟨hf, _⟩ <;> cases hf
  | applied _ _ _ _ => exact absurd hf (afterEffect_runState_ne_failed hrun _ _)

/-! ## The obligations -/

/-- Settles O33. -/
theorem stepRunsDecodedInstruction : Obligations.StepRunsDecodedInstruction := by
  intro s code i hs hdec
  exact step_of_executes hs hdec

/-- Settles O35. The limit is compared with the incremented count, so an execution under its limit
reaches it exactly, but for the limit 0, which the first fetch passes (D5). -/
theorem operationLimitEndsExecution : Obligations.OperationLimitEndsExecution := by
  intro s hturn hip
  refine ⟨fun n hn hle => ⟨?fails, fun hunder => ?count⟩, fun hbelow => ?passes⟩
  case fails =>
    exact step_of_limitReached hturn hip ((limitReached_count_iff s).mpr ⟨n, hn, hle⟩)
  case count =>
    have hc := hunder n hn
    omega
  case passes =>
    obtain ⟨t, ht⟩ := step_next s
    refine ⟨t, ht, fun hf => ?_⟩
    have hlimit := (cycleResult_of_step hturn ht).limitReached_of_failed hturn.1 hf
    obtain ⟨n, hn, hle⟩ := (limitReached_count_iff s).mp hlimit
    rcases hbelow with hnone | ⟨m, hm, hlt⟩
    · cases hnone.symm.trans hn
    · cases hm.symm.trans hn
      omega

/-- Settles O38. Every failure is raised on the state before the effect, and only that of step 1 before
the fetch is counted. -/
theorem failuresArePrecise : Obligations.FailuresArePrecise := by
  intro s t f hrun hstep hf
  rcases failed_cases hrun hstep hf with ⟨rfl, hip, rfl⟩ | ⟨hne, hip, rfl⟩
  · exact ⟨rfl, rfl, rfl, rfl, ⟨fun _ => hip, fun _ => rfl⟩, fun _ => ⟨rfl, rfl⟩,
      fun hne => absurd rfl hne⟩
  · exact ⟨rfl, rfl, rfl, rfl, ⟨fun h => absurd h hne, fun h => absurd hip (Nat.not_lt.mpr h)⟩,
      fun h => absurd h hne, fun _ => ⟨rfl, rfl⟩⟩

/-- Settles O39. `fail_code` and the count are those of the failing cycle, and `ip` is kept. -/
theorem failureContextIsHeld : Obligations.FailureContextIsHeld := by
  intro s t f hrun _ hstep hf
  rcases failed_cases hrun hstep hf with ⟨rfl, _, rfl⟩ | ⟨hne, _, rfl⟩
  · rfl
  · cases f with
    | outOfBounds => exact absurd rfl hne
    | valueOutOfRange | illegalInstruction | operationLimitExceeded => rfl

/-- Settles O40. The count is incremented after step 1 and before every later check. -/
theorem opCountCountsFetches : Obligations.OpCountCountsFetches := by
  intro s t hturn hstep
  cases cycleResult_of_step hturn hstep with
  | outsideMemory hip => exact ⟨rfl, fun h => absurd h (Nat.not_lt.mpr hip), fun _ => rfl⟩
  | limitReached hip _ | codeTooLarge hip _ _ | effectFailed hip _ _ _ | applied hip _ _ _ =>
    exact ⟨rfl, fun _ => rfl, fun h => absurd hip (Nat.not_lt.mpr h)⟩

theorem eq_hlt_of_kind {i : Instr} (h : i.kind = .hlt) : i = .hlt i.operand := by
  have hi := kind_instr_operand i
  rw [h] at hi
  exact hi.symm

/-- A cycle goes on, fails, or halts with a fetched HLT. -/
theorem CycleResult.runState_cases {s t : State} (h : CycleResult s t)
    (hrun : s.runState = .running) :
    t.runState = .running ∨ (∃ f, t.runState = .failed f) ∨
      (t.runState = .halted ∧ ∃ a, decode (s.mem.cellAt s.ip) = .instr (.hlt a)) := by
  cases h with
  | outsideMemory _ | limitReached _ _ | codeTooLarge _ _ _ | effectFailed _ _ _ _ =>
    exact .inr (.inl ⟨_, rfl⟩)
  | @applied i _ _ hdec _ =>
    by_cases hhlt : i.kind = .hlt
    · exact .inr (.inr ⟨by simp [hhlt], _, eq_hlt_of_kind hhlt ▸ hdec⟩)
    · exact .inl (by simp [hhlt, hrun])

/-- What a request does to `run_state`. -/
theorem serve_runState (r : HostRequest) (s : State) :
    (r = .powerOnReset ∧ (serve r s).runState = .idle) ∨
      ((∃ n, r = .start n) ∧ (serve r s).runState = .running) ∨
      (serve r s).runState = s.runState := by
  cases r with
  | powerOnReset => exact .inl ⟨rfl, rfl⟩
  | start n => exact .inr (.inl ⟨⟨n, rfl⟩, rfl⟩)
  | setCell a v =>
    refine .inr (.inr ?_)
    cases h : memWrite s.mem a v <;> simp [serve, h]
  | readCell a => exact .inr (.inr rfl)

/-- Settles O41. A step is a cycle, nothing, or a request served; a machine that is Running serves only
the reset. -/
theorem runStateTransitions : Obligations.RunStateTransitions := by
  intro s t hstep
  by_cases hrun : s.runState = .running
  · rcases step_of_running hrun hstep with ⟨hreset, rfl⟩ | ⟨_, hresult⟩
    · exact .inl ⟨hreset, rfl⟩
    · exact .inr (.inl ⟨hrun, hresult.runState_cases hrun⟩)
  · rcases step_cases s with ⟨⟨h, _⟩, _⟩ | ⟨_, _, hidle⟩ | ⟨r, hr, _, hserve⟩
    · exact absurd h hrun
    · cases hstep.symm.trans hidle
      exact .inr (.inr (.inl ⟨hrun, rfl⟩))
    · cases hstep.symm.trans hserve
      rcases serve_runState r s.takeInput with ⟨rfl, h⟩ | ⟨⟨n, rfl⟩, h⟩ | h
      · exact .inl ⟨hr, h⟩
      · exact .inr (.inr (.inr ⟨hrun, ⟨n, hr⟩, h⟩))
      · exact .inr (.inr (.inl ⟨hrun, h⟩))

theorem step_of_stopped {s : State} (hrun : s.runState ≠ .running) (hreq : s.presented = none) :
    step s = .next s.takeInput := by
  rcases step_cases s with ⟨⟨h, _⟩, _⟩ | ⟨_, _, hstep⟩ | ⟨r, hr, _⟩
  · exact absurd h hrun
  · exact hstep
  · cases hreq.symm.trans hr

/-- Settles O42. Neither a cycle nor a request acts in this step. -/
theorem stoppedMachineHoldsState : Obligations.StoppedMachineHoldsState := by
  intro s hrun hreq
  exact step_of_stopped hrun hreq

end Sys2Proof.Machine
end

section
/-! PROOFS. 10_state.md R27 and R31: the invariants. What every way a step can end does to the ranges and
to the failure record, and the two obligations from these. -/

namespace Sys2Proof.Machine

/-! ## The ranges -/

/-- The ranges do not look at the count, the record, the limit or the inputs. -/
theorem State.InRange.congr {s t : State} (h : s.InRange) (hmem : t.mem = s.mem)
    (hacc : t.acc = s.acc) (hip : t.ip = s.ip) : t.InRange where
  memWf := hmem ▸ h.memWf
  memInRange := hmem ▸ h.memInRange
  accInRange := hacc ▸ h.accInRange
  ipInRange := hip ▸ h.ipInRange

theorem nextIp_le {k : Kind} {ip a : Nat} (z : Bool) (hip : ip < Config.ramSize)
    (ha : a < Config.ramSize) : nextIp k ip a z ≤ Config.ramSize + 1 := by
  cases k with
  | jmp => exact ha.le.trans (Nat.le_succ _)
  | tst =>
    simp only [nextIp]
    split <;> omega
  | hlt | unknown => exact hip.le.trans (Nat.le_succ _)
  | noop | take | add | sub | save | inc | dec | null => exact Nat.succ_le_succ hip.le

theorem afterEffect_inRange {s : State} {i : Instr} (h : s.InRange) (hip : s.ip < Config.ramSize)
    (ha : i.operand < Config.ramSize) : (s.afterEffect i).InRange := by
  have hacc : s.effectAcc i ≤ Config.maxValue := newAcc_le h.accInRange (operandValue_le s i)
  have hip' := nextIp_le (k := i.kind) (isZero (s.operandValue i)) hip ha
  cases hw : Kind.writesCell i.kind with
  | false =>
    have hmem : (s.afterEffect i).mem = s.mem := by simp [hw]
    exact ⟨hmem ▸ h.memWf, hmem ▸ h.memInRange, hacc, hip'⟩
  | true =>
    have hmem : (s.afterEffect i).mem = s.mem.put i.operand (s.effectAcc i) := by simp [hw]
    exact ⟨hmem ▸ wf_put _ ha h.memWf, hmem ▸ inRange_put _ hacc h.memInRange, hacc, hip'⟩

theorem CycleResult.inRange {s t : State} (h : CycleResult s t) (hs : s.InRange) : t.InRange := by
  cases h with
  | outsideMemory _ | limitReached _ _ | codeTooLarge _ _ _ | effectFailed _ _ _ _ =>
    exact hs.congr rfl rfl rfl
  | applied hip _ hdec _ =>
    exact afterEffect_inRange (s := s.takeInput.count) (hs.congr rfl rfl rfl) hip
      (decode_operand_lt hdec)

theorem setMem_inRange {s : State} {m : Memory} {a v : Nat} (hs : s.InRange)
    (hwrite : memWrite s.mem a v = .ok m) : (s.setMem m).InRange := by
  obtain ⟨ha, hv, rfl⟩ := memWrite_ok_iff.mp hwrite
  exact ⟨wf_put v ha hs.memWf, inRange_put a hv hs.memInRange, hs.accInRange, hs.ipInRange⟩

theorem serve_inRange {s : State} (r : HostRequest) (hs : s.InRange) : (serve r s).InRange := by
  cases r with
  | powerOnReset => exact reset_inRange.congr rfl rfl rfl
  | start n => exact ⟨hs.memWf, hs.memInRange, Nat.zero_le _, Nat.zero_le _⟩
  | readCell a => exact hs
  | setCell a v =>
    cases hwrite : memWrite s.mem a v with
    | error f => simpa only [serve, hwrite] using hs
    | ok m => simpa only [serve, hwrite] using setMem_inRange hs hwrite

/-- Settles O43. A failure and an idle step leave memory, `acc` and `ip`; an effect writes an `acc` in
range to a cell that exists and moves `ip` from a cell by at most 2; a request checks what it writes. -/
theorem stepKeepsRanges : Obligations.StepKeepsRanges := by
  intro s t hs hstep
  rcases step_cases s with ⟨hturn, _⟩ | ⟨_, _, hidle⟩ | ⟨r, _, _, hserve⟩
  · exact (cycleResult_of_step hturn hstep).inRange hs
  · cases hstep.symm.trans hidle
    exact hs.congr rfl rfl rfl
  · cases hstep.symm.trans hserve
    exact serve_inRange r (hs.congr rfl rfl rfl)

/-! ## The failure record -/

/-- The record does not look at memory, `acc` or the inputs. -/
theorem State.RecordSound.congr {s t : State} (h : s.RecordSound) (hrun : t.runState = s.runState)
    (hcode : t.failCode = s.failCode) (hip : t.ip = s.ip) (hcount : t.opCount = s.opCount)
    (hlimit : t.maxOps = s.maxOps) : t.RecordSound := by
  simpa only [State.RecordSound, State.UnderLimit, hrun, hcode, hip, hcount, hlimit] using h

theorem recordSound_of_running {s : State} (hrun : s.runState = .running) (h : s.RecordSound) :
    s.failCode = 0 ∧ s.UnderLimit := by
  simpa only [State.RecordSound, hrun] using h

/-- A machine that goes on is under its limit, since the incremented count did not reach it. -/
theorem underLimit_of_limitReached {s : State} (h : s.count.limitReached = false) :
    s.count.UnderLimit := by
  intro n hn
  by_contra hreached
  have hlimit := (limitReached_count_iff s).mpr ⟨n, hn, by simp at hreached; omega⟩
  simp [h] at hlimit

/-- The count at which step 3 fails (D5). -/
theorem opCount_of_limitReached {s : State} (hunder : s.UnderLimit)
    (hlimit : s.count.limitReached = true) : ∃ n, s.maxOps = some n ∧ s.opCount + 1 = max n 1 := by
  obtain ⟨n, hn, hle⟩ := (limitReached_count_iff s).mp hlimit
  have hc := hunder n hn
  exact ⟨n, hn, by omega⟩

/-- The code of an effect that fails with `acc` in range is one of an opcode without a mnemonic. -/
theorem illegal_of_effectFailure {code acc : Nat} {i : Instr} {f : Failure}
    (hdec : decode code = .instr i) (hacc : acc ≤ Config.maxValue)
    (hfailure : effectFailure i acc = some f) : f = .illegalInstruction ∧ 11000 ≤ code := by
  rcases effectFailure_of_lt (decode_operand_lt hdec) hfailure with ⟨_, _, hbig⟩ | ⟨hf, hkind⟩
  · exact absurd hacc (Nat.not_le.mpr hbig)
  · rw [kind_of_decode hdec, opcode_of_decode hdec, kindOf_eq_unknown_iff] at hkind
    exact ⟨hf, (Nat.le_div_iff_mul_le (by decide)).mp hkind⟩

theorem afterEffect_recordSound {s : State} (i : Instr) (hrun : s.runState = .running)
    (hcode : s.failCode = 0) (hunder : s.UnderLimit) (hip : s.ip < Config.ramSize) :
    (s.afterEffect i).RecordSound := by
  by_cases hhlt : i.kind = .hlt
  · simpa [State.RecordSound, hhlt, nextIp] using ⟨hcode, hip⟩
  · simpa [State.RecordSound, hhlt, hrun] using ⟨hcode, hunder⟩

theorem CycleResult.recordSound {s t : State} (h : CycleResult s t) (hs : s.InRange)
    (hrun : s.runState = .running) (hcode : s.failCode = 0) (hunder : s.UnderLimit) :
    t.RecordSound := by
  have hfetched := cellAt_le hs.memInRange s.ip
  cases h with
  | outsideMemory hip => exact ⟨hcode, hip⟩
  | limitReached hip hlimit => exact ⟨hip, hfetched, opCount_of_limitReached hunder hlimit⟩
  | codeTooLarge _ _ hbig => exact absurd hfetched (Nat.not_le.mpr hbig)
  | effectFailed hip _ hdec hfailure =>
    obtain ⟨rfl, hlow⟩ := illegal_of_effectFailure hdec hs.accInRange hfailure
    exact ⟨hip, hlow, hfetched⟩
  | applied hip hlimit _ _ =>
    exact afterEffect_recordSound (s := s.takeInput.count) _ hrun hcode
      (underLimit_of_limitReached hlimit) hip

theorem serve_recordSound {s : State} (r : HostRequest) (hs : s.RecordSound) :
    (serve r s).RecordSound := by
  cases r with
  | powerOnReset => exact (rfl : s.powerOn.failCode = 0)
  | start n => exact ⟨rfl, fun _ _ => .inl rfl⟩
  | readCell a => exact hs
  | setCell a v =>
    cases hwrite : memWrite s.mem a v with
    | error f => simpa only [serve, hwrite] using hs
    | ok m => simpa only [serve, hwrite] using hs.congr (t := s.setMem m) rfl rfl rfl rfl rfl

/-- Settles O44. Each failure of a cycle leaves the record its check asks for; that cells and `acc` are in
range excludes `ValueOutOfRange`; an execution that goes on has not reached its limit. -/
theorem stepKeepsFailureRecord : Obligations.StepKeepsFailureRecord := by
  intro s t hs hrecord hstep
  rcases step_cases s with ⟨hturn, _⟩ | ⟨_, _, hidle⟩ | ⟨r, _, _, hserve⟩
  · obtain ⟨hcode, hunder⟩ := recordSound_of_running hturn.1 hrecord
    exact (cycleResult_of_step hturn hstep).recordSound hs hturn.1 hcode hunder
  · cases hstep.symm.trans hidle
    exact hrecord.congr rfl rfl rfl rfl rfl
  · cases hstep.symm.trans hserve
    exact serve_recordSound r (hrecord.congr rfl rfl rfl rfl rfl)

end Sys2Proof.Machine
end

section
/-! PROOFS. 70_reset_and_hazards.md R187 and 40_cycle_fsm.md R84: executions without host input. What a
silent step keeps, the bound a limit sets, the endless self-jump, and the run with a limit beside the run
without one. -/

namespace Sys2Proof.Machine

/-! ## A silent step -/

theorem presented_of_silent {s : State} (hin : s.hostIn = []) : s.presented = none := by
  rw [State.presented, hin]

theorem engineTurn_of_silent {s : State} (hrun : s.runState = .running) (hin : s.hostIn = []) :
    s.EngineTurn :=
  ⟨hrun, by simp [presented_of_silent hin]⟩

/-- What a cycle keeps, whatever it ends in (R25, R26). -/
theorem CycleResult.frame {s t : State} (h : CycleResult s t) :
    t.hostIn = s.hostIn.tail ∧ t.maxOps = s.maxOps ∧ s.opCount ≤ t.opCount := by
  cases h with
  | outsideMemory _ => exact ⟨rfl, rfl, le_rfl⟩
  | limitReached _ _ | codeTooLarge _ _ _ | effectFailed _ _ _ _ | applied _ _ _ _ =>
    exact ⟨rfl, rfl, Nat.le_succ _⟩

theorem silent_step_frame {s t : State} (hin : s.hostIn = []) (hstep : step s = .next t) :
    t.hostIn = [] ∧ t.maxOps = s.maxOps ∧ s.opCount ≤ t.opCount := by
  by_cases hrun : s.runState = .running
  · obtain ⟨hhost, hframe⟩ := (cycleResult_of_step (engineTurn_of_silent hrun hin) hstep).frame
    exact ⟨by rw [hhost, hin, List.tail_nil], hframe⟩
  · cases hstep.symm.trans (step_of_stopped hrun (presented_of_silent hin))
    exact ⟨by rw [State.takeInput_hostIn, hin, List.tail_nil], rfl, le_rfl⟩

theorem opCount_le_of_runSteps {k : Nat} {s t : State} (hin : s.hostIn = [])
    (hrun : runSteps k s = .next t) : s.opCount ≤ t.opCount := by
  induction k generalizing s with
  | zero =>
    cases hrun
    exact le_rfl
  | succ k ih =>
    obtain ⟨u, hu⟩ := step_next s
    obtain ⟨hin', _, hle⟩ := silent_step_frame hin hu
    exact hle.trans (ih hin' ((runSteps_succ hu).symm.trans hrun))

/-! ## The limit bounds the execution -/

/-- A cycle after which the machine still runs has counted its fetch below the limit. -/
theorem running_step_below_limit {n : Nat} {s t : State} (h : CycleResult s t)
    (hlimit : s.maxOps = some n) (hrun : t.runState = .running) :
    t.opCount = s.opCount + 1 ∧ s.opCount + 1 < n := by
  cases h with
  | outsideMemory _ | limitReached _ _ | codeTooLarge _ _ _ | effectFailed _ _ _ _ => cases hrun
  | applied _ hbelow _ _ =>
    refine ⟨rfl, Nat.lt_of_not_le fun hle => ?_⟩
    simp [(limitReached_count_iff s).mpr ⟨n, hlimit, hle⟩] at hbelow

/-- Each cycle but the last brings the count one nearer to the limit. -/
theorem runSteps_ends {n d : Nat} {s : State} (hin : s.hostIn = []) (hlimit : s.maxOps = some n)
    (hrun : s.runState = .running) (hd : n - s.opCount ≤ d + 1) :
    ∃ (k : Nat) (t : State), k ≤ d + 1 ∧ runSteps k s = .next t ∧ t.runState ≠ .running := by
  induction d generalizing s with
  | zero =>
    obtain ⟨u, hu⟩ := step_next s
    refine ⟨1, u, le_rfl, runSteps_succ hu, fun hrun' => ?_⟩
    have hresult := cycleResult_of_step (engineTurn_of_silent hrun hin) hu
    obtain ⟨_, hbelow⟩ := running_step_below_limit hresult hlimit hrun'
    omega
  | succ d ih =>
    obtain ⟨u, hu⟩ := step_next s
    by_cases hrun' : u.runState = .running
    · have hresult := cycleResult_of_step (engineTurn_of_silent hrun hin) hu
      obtain ⟨hcount, hbelow⟩ := running_step_below_limit hresult hlimit hrun'
      obtain ⟨hin', hlimit', _⟩ := silent_step_frame hin hu
      obtain ⟨k, t, hk, ht, hstopped⟩ := ih hin' (hlimit'.trans hlimit) hrun' (by omega)
      exact ⟨k + 1, t, Nat.succ_le_succ hk, (runSteps_succ hu).trans ht, hstopped⟩
    · exact ⟨1, u, by omega, runSteps_succ hu, hrun'⟩

/-- Settles O45. A machine that is not Running has ended; a running one has as many cycles left as the
count is below the limit, and one if it is not. -/
theorem limitBoundsExecution : Obligations.LimitBoundsExecution := by
  intro n s _ hin hlimit
  by_cases hrun : s.runState = .running
  · obtain ⟨k, t, hk, ht, hstopped⟩ :=
      runSteps_ends (d := max 1 (n - s.opCount) - 1) hin hlimit hrun (by omega)
    exact ⟨k, t, by omega, ht, hstopped⟩
  · exact ⟨0, s, Nat.zero_le _, rfl, hrun⟩

/-! ## The endless self-jump -/

theorem count_limitReached_of_none {s : State} (h : s.maxOps = none) :
    s.count.limitReached = false := by
  simp [State.limitReached, h]

/-- The cycle of a jump to itself (R121, R187). -/
theorem step_of_self_jump {s : State} (hrun : s.runState = .running) (hin : s.hostIn = [])
    (hlimit : s.maxOps = none) (hip : s.ip < Config.ramSize)
    (hcell : s.mem.cellAt s.ip = 5000 + s.ip) :
    step s = .next { s with opCount := s.opCount + 1 } := by
  have hs : s.Executes (5000 + s.ip) :=
    ⟨engineTurn_of_silent hrun hin, hip, count_limitReached_of_none hlimit, hcell⟩
  have hdec : decode (5000 + s.ip) = .instr (.jmp s.ip) :=
    decode_of_row 5 s.ip (decide_eq_true hip) rfl rfl (by omega)
  have hsilent : s.hostIn.tail = s.hostIn := by rw [hin, List.tail_nil]
  rw [step_of_executes hs hdec, exec_jmp_eq, hsilent]

/-- Settles O46. The state after the cycle meets the same premises, with one more fetch counted. -/
theorem selfJumpNeverEnds : Obligations.SelfJumpNeverEnds := by
  intro k
  induction k with
  | zero => exact fun s _ _ _ _ _ => rfl
  | succ k ih =>
    intro s hrun hin hlimit hip hcell
    rw [runSteps_succ (step_of_self_jump hrun hin hlimit hip hcell),
      ih { s with opCount := s.opCount + 1 } hrun hin hlimit hip hcell]
    simp only [Nat.add_assoc, Nat.add_comm 1 k]

/-! ## A run with a limit beside the run without one -/

/-- The same state under another limit. -/
def State.withLimit (s : State) (limit : Option Nat) : State := { s with maxOps := limit }

theorem withLimit_eq_self {s : State} {limit : Option Nat} (h : s.maxOps = limit) :
    s.withLimit limit = s := by
  subst h
  rfl

theorem limitReached_withLimit_of_lt {s : State} {n : Nat} (h : s.opCount + 1 < n) :
    (s.withLimit (some n)).count.limitReached = false :=
  decide_eq_false (Nat.not_le.mpr h)

/-- The relation is the cycle: what it allows is what the step does. -/
theorem step_of_cycleResult {s t : State} (hturn : s.EngineTurn) (h : CycleResult s t) :
    step s = .next t := by
  cases h with
  | outsideMemory hip => exact step_of_ip_ge hturn hip
  | limitReached hip hlimit => exact step_of_limitReached hturn hip hlimit
  | codeTooLarge hip hlimit hcode => exact step_of_code_gt ⟨hturn, hip, hlimit, rfl⟩ hcode
  | effectFailed hip hlimit hdec hfailure =>
    have hexec := exec_of_failure (s := s.takeInput.count) hfailure
    rw [encode_of_decode hdec] at hexec
    exact (step_of_executes ⟨hturn, hip, hlimit, rfl⟩ hdec).trans hexec
  | applied hip hlimit hdec hnone =>
    exact (step_of_executes ⟨hturn, hip, hlimit, rfl⟩ hdec).trans
      (exec_of_no_failure (s := s.takeInput.count) hnone)

/-- What a cycle without a limit ends in, it ends in under a limit that its count stays below: only step 3
looks at the limit. -/
theorem CycleResult.withLimit {s u : State} {n : Nat} (h : CycleResult (s.withLimit none) u)
    (hn : u.opCount < n) : CycleResult (s.withLimit (some n)) (u.withLimit (some n)) := by
  cases h with
  | outsideMemory hip => exact .outsideMemory (s := s.withLimit (some n)) hip
  | limitReached _ hlimit => cases hlimit
  | codeTooLarge hip _ hcode =>
    exact .codeTooLarge (s := s.withLimit (some n)) hip (limitReached_withLimit_of_lt hn) hcode
  | effectFailed hip _ hdec hfailure =>
    exact .effectFailed (s := s.withLimit (some n)) hip (limitReached_withLimit_of_lt hn) hdec
      hfailure
  | applied hip _ hdec hnone =>
    exact .applied (s := s.withLimit (some n)) hip (limitReached_withLimit_of_lt hn) hdec hnone

theorem step_withLimit {s u : State} {n : Nat} (hin : s.hostIn = [])
    (hstep : step (s.withLimit none) = .next u) (hn : u.opCount < n) :
    step (s.withLimit (some n)) = .next (u.withLimit (some n)) := by
  by_cases hrun : s.runState = .running
  · have hturn : ∀ limit, (s.withLimit limit).EngineTurn :=
      fun limit => engineTurn_of_silent (s := s.withLimit limit) hrun hin
    exact step_of_cycleResult (hturn _) ((cycleResult_of_step (hturn _) hstep).withLimit hn)
  · have hstopped : ∀ limit, step (s.withLimit limit) = .next (s.withLimit limit).takeInput :=
      fun limit =>
        step_of_stopped (s := s.withLimit limit) hrun (presented_of_silent (s := s.withLimit limit) hin)
    cases hstep.symm.trans (hstopped none)
    exact hstopped (some n)

/-- Settles O47. The count only grows, so it stays below `n` at every step of the run without a limit, and
there the two runs go on alike. -/
theorem limitOnlyCutsExecutionShort : Obligations.LimitOnlyCutsExecutionShort := by
  intro k n
  induction k with
  | zero =>
    intro s t _ hrun _
    cases hrun
    rfl
  | succ k ih =>
    intro s t hin hrun hn
    obtain ⟨u, hu⟩ := step_next (s.withLimit none)
    obtain ⟨hin', hnone, _⟩ := silent_step_frame (s := s.withLimit none) hin hu
    have hrun' : runSteps k u = .next t := (runSteps_succ hu).symm.trans hrun
    have hbelow : u.opCount < n := (opCount_le_of_runSteps hin' hrun').trans_lt hn
    have hsame : u.withLimit none = u := withLimit_eq_self hnone
    exact (runSteps_succ (step_withLimit hin hu hbelow)).trans (ih u t hin' (hsame.symm ▸ hrun') hn)

end Sys2Proof.Machine
end

section
/-! PROOFS. 50_interfaces.md R132 to R137: the host's transactions. Start and reset, the answer while
Running, the effect and the answer of `set_cell`, and the program load as a run of such requests. -/

namespace Sys2Proof.Machine

/-! ## Start and reset -/

/-- Settles O48. -/
theorem startBeginsFreshExecution : Obligations.StartBeginsFreshExecution := by
  intro s limit hrun hreq
  exact step_of_request hrun hreq

/-- Settles O52. A presented reset leaves neither a cycle nor an idle step. -/
theorem powerOnResetActsAtAnyTime : Obligations.PowerOnResetActsAtAnyTime := by
  intro s hreset
  by_cases hrun : s.runState = .running
  · obtain ⟨t, ht⟩ := step_next s
    rcases step_of_running hrun ht with ⟨_, rfl⟩ | ⟨⟨_, hne⟩, _⟩
    · exact ht
    · exact absurd hreset hne
  · exact step_of_request hrun hreset

/-! ## The answer while Running -/

theorem hostReply_busy {s : State} {r : HostRequest} (hrun : s.runState = .running)
    (hreq : s.presented = some r) (hne : r ≠ .powerOnReset) : s.hostReply = some .busy := by
  simp [State.hostReply, hreq, HostRequest.refusedIn, isRunning_iff.mpr hrun, hne]

/-- Settles O51. The cycle starts from the state with this step's input taken, and that does not show
what the input was. -/
theorem requestWhileRunningHasNoEffect : Obligations.RequestWhileRunningHasNoEffect := by
  intro s r hrun hreq hne
  have hturn : s.EngineTurn := ⟨hrun, by simp [hreq, hne]⟩
  have hturn' : State.EngineTurn { s with hostIn := none :: s.hostIn.tail } :=
    ⟨hrun, by simp [State.presented]⟩
  exact ⟨hostReply_busy hrun hreq hne,
    (step_of_engineTurn hturn).trans (step_of_engineTurn hturn').symm⟩

/-! ## `set_cell` -/

theorem serve_setCell_ok {s : State} {a v : Nat} (ha : a < Config.ramSize)
    (hv : v ≤ Config.maxValue) : serve (.setCell a v) s = s.setMem (s.mem.put a v) := by
  rw [serve, memWrite_ok_iff.mpr ⟨ha, hv, rfl⟩]

theorem acceptedReply_setCell_ok {s : State} {a v : Nat} (ha : a < Config.ramSize)
    (hv : v ≤ Config.maxValue) : acceptedReply (.setCell a v) s = some .done := by
  rw [acceptedReply, memWrite_ok_iff.mpr ⟨ha, hv, rfl⟩]

theorem serve_setCell_error {s : State} {a v : Nat} {f : Failure}
    (h : memWrite s.mem a v = .error f) : serve (.setCell a v) s = s := by
  rw [serve, h]

theorem acceptedReply_setCell_error {s : State} {a v : Nat} {f : Failure}
    (h : memWrite s.mem a v = .error f) :
    acceptedReply (.setCell a v) s = some (.failed f) := by
  rw [acceptedReply, h]

/-- The step that writes one cell. -/
theorem step_of_setCell {s : State} {a v : Nat} (hrun : s.runState ≠ .running)
    (hreq : s.presented = some (.setCell a v)) (ha : a < Config.ramSize)
    (hv : v ≤ Config.maxValue) :
    step s = .next { s with mem := s.mem.put a v, hostIn := s.hostIn.tail } := by
  rw [step_of_request hrun hreq, serve_setCell_ok ha hv]
  rfl

/-- A request whose check fails is told the failure and changes nothing (R135). -/
theorem setCell_error {s : State} {a v : Nat} {f : Failure} (hrun : s.runState ≠ .running)
    (hreq : s.presented = some (.setCell a v)) (h : memWrite s.mem a v = .error f) :
    s.hostReply = some (.failed f) ∧ step s = .next { s with hostIn := s.hostIn.tail } := by
  rw [hostReply_of_request hrun hreq, acceptedReply_setCell_error h, step_of_request hrun hreq,
    serve_setCell_error (s := s.takeInput) h]
  exact ⟨rfl, rfl⟩

/-- Settles O49. The checks are those of the memory's write, the address first (D11). -/
theorem setCellWritesOrTellsFailure : Obligations.SetCellWritesOrTellsFailure := by
  intro s a v hreq
  refine ⟨fun hrun => ?busy, fun hrun ha hv => ?done, fun hrun ha => ?address,
    fun hrun ha hv => ?value⟩
  case busy => exact requestWhileRunningHasNoEffect s _ hrun hreq (by simp)
  case done =>
    exact ⟨(hostReply_of_request hrun hreq).trans (acceptedReply_setCell_ok ha hv),
      s.mem.put a v, cellAt_put s.mem a v, step_of_setCell hrun hreq ha hv⟩
  case address => exact setCell_error hrun hreq (memWrite_error_iff.mpr (.inl ⟨ha, rfl⟩))
  case value => exact setCell_error hrun hreq (memWrite_error_iff.mpr (.inr ⟨ha, hv, rfl⟩))

/-! ## The program load -/

/-- The load from any first cell: line `k` comes into cell `first + k`, and the cells outside the lines
keep what they held. -/
theorem load_from (lines : List Instr) (first : Nat) (s : State)
    (later : List (Option HostRequest)) (hrun : s.runState ≠ .running)
    (hfit : first + lines.length ≤ Config.ramSize) (hwf : ∀ i ∈ lines, i.wf = true)
    (hin : s.hostIn = loadRequests first lines ++ later) :
    ∃ m : Memory,
      runSteps lines.length s = .next { s with mem := m, hostIn := later } ∧
      (∀ (k : Nat) (h : k < lines.length), m.cellAt (first + k) = encode lines[k]) ∧
      ∀ a : Nat, a < first ∨ first + lines.length ≤ a → m.cellAt a = s.mem.cellAt a := by
  induction lines generalizing first s with
  | nil =>
    obtain rfl : s.hostIn = later := hin
    exact ⟨s.mem, rfl, fun k h => absurd h (Nat.not_lt_zero k), fun _ _ => rfl⟩
  | cons i rest ih =>
    rw [List.length_cons] at hfit
    have hreq : s.presented = some (.setCell first (encode i)) := by
      rw [State.presented, hin]
      rfl
    have htail : s.hostIn.tail = loadRequests (first + 1) rest ++ later := by
      rw [hin]
      rfl
    obtain ⟨hcode, _⟩ := encode_fields i (hwf i (by simp))
    have hstep := step_of_setCell hrun hreq (by omega) hcode
    obtain ⟨m, hm, hlines, hother⟩ :=
      ih (first + 1) { s with mem := s.mem.put first (encode i), hostIn := s.hostIn.tail } hrun
        (by omega) (fun j hj => hwf j (by simp [hj])) htail
    refine ⟨m, (runSteps_succ hstep).trans hm, fun k hk => ?line, fun a ha => ?other⟩
    case line =>
      cases k with
      | zero => exact (hother first (by omega)).trans (cellAt_put_same ..)
      | succ k =>
        have haddress : first + (k + 1) = first + 1 + k := by omega
        exact (congrArg m.cellAt haddress).trans (hlines k (Nat.lt_of_succ_lt_succ hk))
    case other =>
      rw [List.length_cons] at ha
      rw [hother a (by omega)]
      exact cellAt_put_other _ _ (by omega)

/-- Settles O53. The program load is the load from cell 0. -/
theorem loadPutsLineIntoItsCell : Obligations.LoadPutsLineIntoItsCell := by
  intro lines s later hrun hfit hwf hin
  obtain ⟨m, hm, hlines, hother⟩ := load_from lines 0 s later hrun (by omega) hwf hin
  refine ⟨m, hm, fun k hk => ?_, fun k hk => hother k (.inr (by omega))⟩
  simpa only [Nat.zero_add] using hlines k hk

end Sys2Proof.Machine
end

section
/-! PROOFS. 50_interfaces.md R131, R133 and R138 and 40_cycle_fsm.md R94: the outputs. The trace record of
a cycle, the ports in a sound state, what shows during a run, and the word placed for the next step
(log 10). -/

namespace Sys2Proof.Machine

/-! ## The trace record -/

theorem emitted_of_not_engineTurn {s : State} (h : ¬ s.EngineTurn) : s.emitted = none := by
  rcases turn_cases s with ⟨hturn, _⟩ | ⟨_, _, hhost⟩ | ⟨_, _, _, hhost⟩
  · exact absurd hturn h
  · simp only [State.emitted, hhost]
  · simp only [State.emitted, hhost]

theorem emitted_of_fetch_failed {s t : State} (hturn : s.EngineTurn)
    (hfetch : fetch s.takeInput = .failed t) : s.emitted = none := by
  simp only [State.emitted, turn_of_engineTurn hturn, hfetch]

/-- Steps 5 and 6 of a cycle whose checks pass (R87). -/
theorem emitted_of_executes {s t : State} {i : Instr} (hturn : s.EngineTurn)
    (hip : s.ip < Config.ramSize) (hlimit : s.count.limitReached = false)
    (hdec : decode (s.mem.cellAt s.ip) = .instr i) (hexec : exec i s.takeInput.count = .next t) :
    s.emitted = if t.isFailed then none else some (traceRecord i s.ip t) := by
  have hfetch : fetch s.takeInput = .ready i s.takeInput.count := fetch_of_decode hip hlimit hdec
  simp only [State.emitted, turn_of_engineTurn hturn, hfetch, hexec, State.count_ip,
    State.takeInput_ip]

/-- What a cycle emits: nothing where it fails, the record of the instruction that it applied (R87,
R138). -/
theorem CycleResult.emitted {s t : State} (h : CycleResult s t) (hturn : s.EngineTurn) :
    (t.isFailed = true ∧ s.emitted = none) ∨
      (t.isFailed = false ∧ ∃ i, decode (s.mem.cellAt s.ip) = .instr i ∧
        (∀ n, i.kind ≠ .unknown n) ∧ s.emitted = some (traceRecord i s.ip t)) := by
  cases h with
  | outsideMemory hip =>
    exact .inl ⟨rfl, emitted_of_fetch_failed hturn (fetch_of_ip_ge hip)⟩
  | limitReached hip hlimit =>
    exact .inl ⟨rfl, emitted_of_fetch_failed hturn
      ((fetch_of_ip_lt (s := s.takeInput) hip).trans (decodeFetched_of_limitReached _ hlimit))⟩
  | codeTooLarge hip hlimit hcode =>
    exact .inl ⟨rfl, emitted_of_fetch_failed hturn
      ((fetch_of_ip_lt (s := s.takeInput) hip).trans (decodeFetched_of_gt hlimit hcode))⟩
  | effectFailed hip hlimit hdec hfailure =>
    exact .inl ⟨rfl, emitted_of_executes hturn hip hlimit hdec (exec_of_failure hfailure)⟩
  | @applied i hip hlimit hdec hnone =>
    have hwell : (s.takeInput.count.afterEffect i).isFailed = false := afterEffect_isFailed hturn.1 i
    refine .inr ⟨hwell, i, hdec, kind_ne_unknown_of_effectFailure hnone, ?_⟩
    rw [emitted_of_executes hturn hip hlimit hdec (exec_of_no_failure hnone), hwell]
    rfl

/-- The opcodes of the write column (R56, R138). -/
theorem writesCell_kind_iff {i : Instr} (hdefined : ∀ n, i.kind ≠ .unknown n) :
    Kind.writesCell i.kind = true ↔ i.opcode ∈ [4, 7, 8, 9] := by
  cases i with
  | unknown n a => exact absurd rfl (hdefined n)
  | _ => simp [Instr.kind, Instr.opcode, Kind.writesCell]

/-- The opcodes of the records that show a cell (R138). -/
theorem showsCell_kind_iff {i : Instr} (hdefined : ∀ n, i.kind ≠ .unknown n) :
    Kind.showsCell i.kind = true ↔ i.opcode ∉ [0, 5, 10] := by
  cases i with
  | unknown n a => exact absurd rfl (hdefined n)
  | _ => simp [Instr.kind, Instr.opcode, Kind.showsCell]

theorem opcode_le_of_decode {code : Nat} {i : Instr} (hdec : decode code = .instr i)
    (hdefined : ∀ n, i.kind ≠ .unknown n) : i.opcode ≤ 10 := by
  by_contra hbig
  refine hdefined i.opcode ?_
  rw [kind_of_decode hdec, ← opcode_of_decode hdec]
  exact kindOf_unknown (by omega)

theorem traceRecord_memValue {i : Instr} (hdefined : ∀ n, i.kind ≠ .unknown n) (ip : Nat)
    (t : State) :
    (traceRecord i ip t).tMemValue = if i.opcode ∈ [0, 5, 10] then 0 else t.mem.cellAt i.operand := by
  by_cases hshown : i.opcode ∈ [0, 5, 10]
  · rw [if_pos hshown]
    exact if_neg fun h => (showsCell_kind_iff hdefined).mp h hshown
  · rw [if_neg hshown]
    exact if_pos ((showsCell_kind_iff hdefined).mpr hshown)

/-- Settles O54. A cycle that does not fail applied the instruction its fetched code decodes to, and the
record is of that instruction, whose fields are those of the code. -/
theorem traceRecordDescribesCycle : Obligations.TraceRecordDescribesCycle := by
  intro s t hstep
  by_cases hturn : s.EngineTurn
  · rcases (cycleResult_of_step hturn hstep).emitted hturn with
      ⟨hfailed, hnone⟩ | ⟨hwell, i, hdec, hdefined, hsome⟩
    · exact ⟨iff_of_true hnone (.inr hfailed), fun r hr => by cases hnone.symm.trans hr⟩
    · refine ⟨iff_of_false (by simp [hsome]) (by simp [hturn, hwell]), fun r hr => ?_⟩
      cases hsome.symm.trans hr
      exact ⟨rfl, opcode_of_decode hdec, operand_of_decode hdec, opcode_le_of_decode hdec hdefined,
        rfl, rfl, writesCell_kind_iff hdefined, traceRecord_memValue hdefined s.ip t⟩
  · have hnone := emitted_of_not_engineTurn hturn
    exact ⟨iff_of_true hnone (.inl hturn), fun r hr => by cases hnone.symm.trans hr⟩

/-! ## The ports -/

/-- In a sound record `fail_code` is 0 or a cell value. -/
theorem failCode_le_of_recordSound {s : State} (h : s.RecordSound) :
    s.failCode ≤ Config.maxValue := by
  have hzero : s.failCode = 0 → s.failCode ≤ Config.maxValue := fun h0 => h0 ▸ Nat.zero_le _
  unfold State.RecordSound at h
  generalize s.runState = r at h
  cases r with
  | idle => exact hzero h
  | running | halted => exact hzero h.1
  | failed f =>
    cases f with
    | outOfBounds => exact hzero h.1
    | valueOutOfRange => exact h.elim
    | illegalInstruction =>
      obtain ⟨_, _, hcode⟩ := h
      exact hcode
    | operationLimitExceeded =>
      obtain ⟨_, hcode, _⟩ := h
      exact hcode

theorem toNat_ofNat_of_le_maxValue {v : Nat} (h : v ≤ Config.maxValue) :
    (BitVec.ofNat 17 v).toNat = v := by
  simp only [Config.maxValue] at h
  rw [BitVec.toNat_ofNat, Nat.mod_eq_of_lt (by omega)]

theorem toNat_ofNat_of_le_ipMax {v : Nat} (h : v ≤ Config.ramSize + 1) :
    (BitVec.ofNat 10 v).toNat = v := by
  simp only [Config.ramSize] at h
  rw [BitVec.toNat_ofNat, Nat.mod_eq_of_lt (by omega)]

/-- Settles O55. The codes fit their ports, and in a sound state the registers fit the reference widths,
so no port cuts a number off. -/
theorem portsShowHeldState : Obligations.PortsShowHeldState := by
  intro s
  refine ⟨?runState, ?failReason, heldPorts_of_running, fun hrun => ?held⟩
  case runState =>
    rw [ports_runState]
    cases s.runState <;> rfl
  case failReason =>
    rw [ports_failReason]
    cases s.runState with
    | failed f => cases f <;> rfl
    | idle | running | halted => rfl
  case held =>
    refine ⟨_, heldPorts_of_not_running hrun, rfl, fun ⟨hrange, hrecord⟩ => ⟨?_, ?_, ?_⟩⟩
    · exact toNat_ofNat_of_le_maxValue hrange.accInRange
    · exact toNat_ofNat_of_le_ipMax hrange.ipInRange
    · exact toNat_ofNat_of_le_maxValue (failCode_le_of_recordSound hrecord)

/-! ## What shows during a run -/

/-- The answer of a running machine to what is presented (R137, D15). -/
def busyReply (presented : Option HostRequest) : Option HostReply :=
  match presented with
  | none | some .powerOnReset => none
  | some (.start _) | some (.setCell _ _) | some (.readCell _) => some .busy

theorem hostReply_of_running {s : State} (hrun : s.runState = .running) :
    s.hostReply = busyReply s.presented := by
  cases hreq : s.presented with
  | none => simp only [State.hostReply, hreq, busyReply]
  | some r =>
    cases r with
    | powerOnReset => simp [State.hostReply, hreq, HostRequest.refusedIn, acceptedReply, busyReply]
    | start | setCell | readCell => exact hostReply_busy hrun hreq (by simp)

theorem ports_eq_of_running {s u : State} (hs : s.runState = .running)
    (hu : u.runState = .running) : s.ports = u.ports := by
  simp only [State.ports, hs, hu, heldPorts_of_running]

/-- Settles O56. During a run the ports and the answer are functions of what is presented alone, so two
runs can differ in the record only; and without a cycle there is none. -/
theorem onlyTraceIsObservableDuringRun : Obligations.OnlyTraceIsObservableDuringRun := by
  refine ⟨fun s hrun => ?shown, fun s u hs hu hreq htrace => ?alike, fun s hrun => ?stopped⟩
  case shown =>
    refine ⟨?_, ?_, heldPorts_of_running hrun, rfl, ?_⟩
    · rw [observation_ports, ports_runState, hrun]
      rfl
    · rw [observation_ports, ports_failReason, hrun]
      rfl
    · rw [observation_reply, hostReply_of_running hrun]
      rfl
  case alike =>
    have hreply : s.hostReply = u.hostReply := by
      rw [hostReply_of_running hs, hostReply_of_running hu, hreq]
    simp only [State.observation, ports_eq_of_running hs hu, hreply, htrace]
  case stopped => exact emitted_of_not_engineTurn fun hturn => hrun hturn.1

/-! ## The word placed for the next step -/

/-- The comparison of step 3 looks at the limit and the count alone (R84). -/
theorem count_limitReached_congr {s t : State} (hlimit : t.maxOps = s.maxOps)
    (hcount : t.opCount = s.opCount) : t.count.limitReached = s.count.limitReached := by
  rw [Bool.eq_iff_iff, limitReached_count_iff, limitReached_count_iff, hlimit, hcount]

section Placed
variable (s : State) (nbits w : Nat)

theorem withFetchWord_ip_lt : (s.withFetchWord nbits w).ip < Config.ramSize := by
  simp only [State.withFetchWord]
  split
  · assumption
  · decide

theorem withFetchWord_mem :
    (s.withFetchWord nbits w).mem = s.mem.put (s.withFetchWord nbits w).ip w := rfl

/-- Nothing is presented at the next step, and the later inputs follow it. -/
theorem withFetchWord_hostIn : (s.withFetchWord nbits w).presented = none ∧
    (s.withFetchWord nbits w).hostIn.tail = s.hostIn := by
  cases h : s.hostIn <;> simp [State.presented, State.withFetchWord, h]

theorem withFetchWord_maxOps :
    (s.withFetchWord nbits w).maxOps = if s.count.limitReached then none else s.maxOps := rfl

/-- A limit that the next fetch would reach is dropped, any other is kept. -/
theorem withFetchWord_limitReached : (s.withFetchWord nbits w).count.limitReached = false := by
  have hlimit := withFetchWord_maxOps s nbits w
  cases h : s.count.limitReached with
  | true => exact count_limitReached_of_none (by simp [hlimit, h])
  | false =>
    have hkept : (s.withFetchWord nbits w).maxOps = s.maxOps := by simp [hlimit, h]
    exact (count_limitReached_congr hkept rfl).trans h

theorem withFetchWord_executes : (s.withFetchWord nbits w).Executes w := by
  obtain ⟨hpresented, _⟩ := withFetchWord_hostIn s nbits w
  refine ⟨⟨rfl, by simp [hpresented]⟩, withFetchWord_ip_lt s nbits w,
    withFetchWord_limitReached s nbits w, ?_⟩
  rw [withFetchWord_mem, cellAt_put_same]

end Placed

theorem decode_of_decodeTableWord {nbits w : Nat} {i : Instr}
    (h : decodeTableWord nbits w = some i) : decode w = .instr i := by
  unfold decodeTableWord at h
  split at h
  · cases h
    assumption
  · cases h

/-- Settles O57. The placed state passes the checks of steps 1 and 3 and fetches the word. -/
theorem placedWordIsRunNext : Obligations.PlacedWordIsRunNext := by
  intro s nbits w i hword
  obtain ⟨_, htail⟩ := withFetchWord_hostIn s nbits w
  refine ⟨?_, ?_, fun b hb => ?_⟩
  · rw [step_of_executes (withFetchWord_executes s nbits w) (decode_of_decodeTableWord hword), htail]
    rfl
  · rw [withFetchWord_mem, cellAt_put_same]
  · rw [withFetchWord_mem, cellAt_put_other _ _ hb]

end Sys2Proof.Machine
end
